-- ==== Sys2Proof/Word.lean ====
section
/-! DEFINITION. The one word of the machine: a byte. Registers, memory cells, opcode bytes, operands and output values are
all 8 bits, unsigned (spec 10_state.md R20, 20_memory.md R43, 00_scope.md R6, decision D1). -/

namespace Sys2Proof

/-- An 8-bit unsigned value, 0..255. -/
abbrev Byte := BitVec 8

end Sys2Proof
end

