-- ==== Sys2Proof/Syntax.lean ====
section
/-! DEFINITION. The instructions: one constructor per row of spec/opcode_table.json (spec 30_encoding.md R65), whole. -/

namespace Sys2Proof

/-- An instruction with its operand bytes. A register operand is the whole operand byte, neither masked nor offset
(30_encoding.md R63): the bytes 8..255 are instructions too, whose execution raises (R67), so no operand is narrowed here. -/
inductive Instr where
  /-- `LDI Ra, b`: `a` a register index, `b` the immediate (41_data_movement.md R100). -/
  | ldi (a b : Byte)
  /-- `PRN Ra` (45_io_control.md R140). -/
  | prn (a : Byte)
  /-- `HLT` (45_io_control.md R141). -/
  | hlt
  /-- `MUL Ra, Rb` (42_arithmetic.md R112). -/
  | mul (a b : Byte)
  /-- `ADD Ra, Rb` (42_arithmetic.md R111). -/
  | add (a b : Byte)
  /-- `PUSH Ra` (43_stack.md R120). -/
  | push (a : Byte)
  /-- `POP Ra` (43_stack.md R121). -/
  | pop (a : Byte)
  /-- `CALL Ra`: `x[a]` holds the target (44_subroutine.md R130). -/
  | call (a : Byte)
  /-- `RET` (44_subroutine.md R131). -/
  | ret
  deriving DecidableEq, Repr

end Sys2Proof
end

