-- ==== Sys2Proof/Decode.lean ====
section
/-! DEFINITION. The decoder, total on any bytes and rejecting by name, then the encoder, both from the opcode map of
spec 30_encoding.md R65. -/

namespace Sys2Proof

/-- The operand count `n = ir[7:6]` (30_encoding.md R61). -/
def operandCount (ir : Byte) : Nat := ir.toNat / 64

/-- The dispatcher (30_encoding.md R65, 40_cycle.md R84): the operation an opcode byte selects, by all of its eight bits, as
what it makes of the two operand bytes (it ignores those it does not need, R87); `none` for the 247 illegal bytes (R66). -/
def opcodeMap (ir : Byte) : Option (Byte → Byte → Instr) :=
  if ir = 0b10000010#8 then some fun a b => .ldi a b
  else if ir = 0b01000111#8 then some fun a _ => .prn a
  else if ir = 0b00000001#8 then some fun _ _ => .hlt
  else if ir = 0b10100010#8 then some fun a b => .mul a b
  else if ir = 0b10100000#8 then some fun a b => .add a b
  else if ir = 0b01000101#8 then some fun a _ => .push a
  else if ir = 0b01000110#8 then some fun a _ => .pop a
  else if ir = 0b01010000#8 then some fun a _ => .call a
  else if ir = 0b00010001#8 then some fun _ _ => .ret
  else none

/-- Why a list of bytes is no instruction. -/
inductive DecodeError where
  /-- There is no opcode byte. -/
  | empty
  /-- The opcode byte is not one of the nine (30_encoding.md R66). -/
  | unrecognizedOpcode (ir : Byte)
  /-- Fewer operand bytes follow than bits 7:6 of the opcode ask for (30_encoding.md R69). -/
  | truncated (ir : Byte)
  deriving DecidableEq, Repr

/-- The instruction at the head of a list of bytes in ascending addresses, with the bytes after it (30_encoding.md R60, R62,
R69). -/
def decode : List Byte → Except DecodeError (Instr × List Byte)
  | [] => .error .empty
  | ir :: rest =>
    match opcodeMap ir with
    | none => .error (.unrecognizedOpcode ir)
    | some make =>
      match operandCount ir, rest with
      | 0, rest => .ok (make 0 0, rest)
      | 1, a :: rest => .ok (make a 0, rest)
      | 2, a :: b :: rest => .ok (make a b, rest)
      | _, _ => .error (.truncated ir)

/-- The opcode byte of an instruction (30_encoding.md R65). -/
def Instr.opcode : Instr → Byte
  | .ldi _ _ => 0x82#8
  | .prn _ => 0x47#8
  | .hlt => 0x01#8
  | .mul _ _ => 0xA2#8
  | .add _ _ => 0xA0#8
  | .push _ => 0x45#8
  | .pop _ => 0x46#8
  | .call _ => 0x50#8
  | .ret => 0x11#8

/-- The operand bytes of an instruction, in encoding order (30_encoding.md R62). -/
def Instr.operands : Instr → List Byte
  | .ldi a b => [a, b]
  | .prn a => [a]
  | .hlt => []
  | .mul a b => [a, b]
  | .add a b => [a, b]
  | .push a => [a]
  | .pop a => [a]
  | .call a => [a]
  | .ret => []

/-- The bytes of an instruction, opcode first, at ascending addresses (30_encoding.md R60, R62). -/
def encode (i : Instr) : List Byte := i.opcode :: i.operands

/-- The length in bytes, `1 + ir[7:6]` (30_encoding.md R69). -/
def Instr.length (i : Instr) : Nat := 1 + operandCount i.opcode

/-- The first `k` bytes of a number, the least significant first. -/
def bytesOfNat : Nat → Nat → List Byte
  | 0, _ => []
  | k + 1, w => BitVec.ofNat 8 w :: bytesOfNat k (w / 256)

/-- The bytes of an opcode-table word of `nbits` bits: bits 7:0 are the byte at the lowest address (the opcode), bits above
`nbits` are 0, up to the longest instruction, three bytes. -/
def tableBytes (nbits w : Nat) : List Byte := bytesOfNat 3 (w % 2 ^ nbits)

/-- The instruction the decoder reads from a word numbered as spec/opcode_table.json numbers it. -/
def decodeTableWord (nbits w : Nat) : Option Instr :=
  match decode (tableBytes nbits w) with
  | .ok (i, _) => some i
  | .error _ => none

end Sys2Proof
end

