-- ==== Sys2Proof/Config.lean ====
section
/-! DEFINITION. What is fixed for the machine (spec 00_scope.md R5) and the free values the spec leaves open. -/

namespace Sys2Proof

/-- `MEM_SIZE`: 256 cells, addresses 0..255 (R5, 10_state.md R32). -/
def Config.memSize : Nat := 256

/-- `NREGS`: 8 registers, indexes 0..7 (R5, 10_state.md R20). -/
def Config.nRegs : Nat := 8

/-- The stack pointer's value after reset, 0xF4 (R5, 10_state.md R36). -/
def Config.spReset : Byte := 0xF4#8

/-- The reset entry point: `pc` starts at 0 whatever the load base is (R5, 10_state.md R36, 90_conflicts.md C4). -/
def Config.pcReset : Nat := 0

/-- `LOAD_BASE`'s default (R5, 70_reset_and_hazards.md R181). -/
def Config.loadBase : Nat := 0

/-- DESIGN CHOICE (log entry 1): what `x[0]` to `x[6]` hold after reset, for which the spec gives no value. Unsafe where a
run reads it, which only the policy `hold` does. -/
def Config.unstatedReset : Byte := 0x00#8

/-- FREE VALUE (log entry 3): the `k`-th arbitrary byte handed out under `UNINIT_POLICY = draw`, "chosen afresh at each
read, under no law" (10_state.md R33). It has no body, so no proof can see what it is. -/
opaque Config.drawByte : Nat → Byte

/-- `UNINIT_POLICY` (R5, 10_state.md R33, decision D5): what a read of a never-written register or memory cell gives. -/
inductive UninitPolicy where
  /-- The spec's default: the read raises `UninitialisedRead`. -/
  | fault
  /-- The spec's other choice: the read gives an arbitrary byte, afresh each time. -/
  | draw
  /-- DESIGN CHOICE (log entries 1 and 2), the model's own: an unwritten register gives the value the state holds in it;
  an unwritten memory cell, which holds none, is read as under `fault`. -/
  | hold
  deriving DecidableEq, Repr

end Sys2Proof
end

