-- ==== Sys2Proof/Machine/State.lean ====
section
/-! DEFINITION. The machine's state as plain data, all of it (spec 10_state.md), and its value after reset (R36). The IR and
the operand latches are not in it: they live for one step only (R28). -/

namespace Sys2Proof.Machine

/-- The run state (10_state.md R29). -/
inductive RunState where
  | running
  | halted
  | faulted
  deriving DecidableEq, Repr

/-- The sub-kind of an `OutOfBoundsAccess` (60_exceptions.md R155). -/
inductive BoundsKind where
  | fetch
  | prefetch
  | register
  | memory
  deriving DecidableEq, Repr

/-- The sub-kind of an `UninitialisedRead` (60_exceptions.md R155). -/
inductive UninitKind where
  | register
  | memory
  deriving DecidableEq, Repr

/-- The error kinds with their details (60_exceptions.md R155). -/
inductive ErrKind where
  /-- Code 0x01: the opcode byte is not one of the nine (R157). -/
  | unrecognizedOpcode
  /-- Code 0x02: an index outside its range, with the index (R156). -/
  | outOfBoundsAccess (kind : BoundsKind) (index : Nat)
  /-- Code 0x03, reserved: nothing raises it (R162). It stands here as the taxonomy lists it. -/
  | unsupportedArithmeticOperation
  /-- Code 0x04: a read of an unwritten register or cell, with its index or address (R158). -/
  | uninitialisedRead (kind : UninitKind) (index : Nat)
  deriving DecidableEq, Repr

/-- The error record (10_state.md R35): the kind (with its detail), the failing step's `fetch_pc`, and the opcode byte if it
was fetched. -/
structure ErrRecord where
  kind : ErrKind
  fetchPc : Nat
  ir : Option Byte
  deriving DecidableEq, Repr

/-- Memory as its written cells (10_state.md R32, R33), addresses strictly rising. An address that is not listed is a cell
nothing has written since reset. -/
abbrev Memory := List Host.Cell

/-- What an unlisted address reads as: no value (log entry 2), because the spec gives an unwritten cell none
(10_state.md R33, R36). -/
def Memory.unlisted : Option Byte := none

/-- The canonical form: addresses strictly rising, all of them in the address space. Every listed byte differs from what an
unlisted address reads as, which is no value. -/
abbrev Memory.wf (m : Memory) : Prop :=
  m.Pairwise (fun p q => p.1 < q.1) ∧ ∀ p ∈ m, p.1 < Config.memSize

/-- The state (the table at the head of 10_state.md), then the spec's parameter and the model's own field. -/
structure State where
  /-- `x[0..7]`: what each register holds (R20). `x[7]` is the stack pointer (R22). -/
  regs : Vector Byte 8
  /-- Whether each register has been written since reset (R33). -/
  regWritten : Vector Bool 8
  /-- The program counter, an unbounded natural number (R25). -/
  pc : Nat
  /-- Memory with the written-ness of its cells (R32, R33). -/
  mem : Memory
  /-- The run state (R29). -/
  run : RunState
  /-- The error record (R35). -/
  err : Option ErrRecord
  /-- The output stream, oldest first (R34). -/
  out : List Byte
  /-- The parameter `UNINIT_POLICY` (R33, 00_scope.md R5), which no step changes. -/
  uninit : UninitPolicy
  /-- The model's own field (log entry 3): how many free values have been drawn. -/
  draws : Nat
  deriving DecidableEq, Repr

/-- Why the machine takes no step. Raised by `step` alone; no instruction's meaning faults. -/
inductive Fault where
  /-- `step` at `run = Halted`: the core has no step (40_cycle.md R88). Safe: nothing is proved of a run past its end. -/
  | coreHalted
  /-- `step` at `run = Faulted`: the core has no step (40_cycle.md R88). Safe, likewise. -/
  | coreFaulted
  deriving DecidableEq, Repr

/-- Why an instruction has no meaning. -/
inductive Refusal where
  /-- An arm of `exec` without a meaning. No arm raises it: all nine instructions are modelled. Safe. -/
  | notModelled (mnemonic : String)
  deriving DecidableEq, Repr

/-- The state after reset and before the load (10_state.md R36, 70_reset_and_hazards.md R180), under a given
`UNINIT_POLICY`. -/
def State.resetWith (policy : UninitPolicy) : State where
  regs := (Vector.replicate 8 Config.unstatedReset).set 7 Config.spReset
  regWritten := (Vector.replicate 8 false).set 7 true
  pc := Config.pcReset
  mem := []
  run := .running
  err := none
  out := []
  uninit := policy
  draws := 0

/-- The machine right after reset. Registers hold values, so the policy is `hold` (DESIGN CHOICE, log entry 1). -/
def State.reset : State := State.resetWith .hold

end Sys2Proof.Machine
end

