-- ==== Sys2Proof/Machine/Ops.lean ====
section
/-! DEFINITION. The named operations over registers, memory, pc and output (spec 00_scope.md R7, 20_memory.md R41, R42), and
the error stop (60_exceptions.md R160), the core's only exception entry. There is no return from it (R161).

A read may fail with an error kind and may draw a free value, so it answers `Except ErrKind (Byte × State)`: nothing is
stored on failure, and whoever runs the instruction raises the kind from the state at the step's start. -/

namespace Sys2Proof.Machine

/-- `trunc8` (00_scope.md R6): the low 8 bits. -/
def trunc8 (n : Nat) : Byte := BitVec.ofNat 8 n

/-- The index of `sp` (10_state.md R22). -/
def spIdx : Fin 8 := 7

/-! ### Memory as data -/

/-- The byte a written cell holds; `Memory.unlisted` for the others. -/
def Memory.cell? : Memory → Nat → Option Byte
  | [], _ => Memory.unlisted
  | (k, w) :: m, a => if k = a then some w else Memory.cell? m a

/-- Put a byte into a cell, keeping the addresses strictly rising. -/
def Memory.store : Memory → Nat → Byte → Memory
  | [], a, v => [(a, v)]
  | (k, w) :: m, a, v =>
    if a < k then (a, v) :: (k, w) :: m
    else if a = k then (a, v) :: m
    else (k, w) :: Memory.store m a v

/-- Put bytes into contiguous cells from `a` on, in order. -/
def Memory.storeFrom : Memory → Nat → List Byte → Memory
  | m, _, [] => m
  | m, a, v :: vs => Memory.storeFrom (Memory.store m a v) (a + 1) vs

/-! ### Registers -/

/-- What register `i` holds. -/
def State.reg (s : State) (i : Fin 8) : Byte := s.regs.get i

/-- Whether register `i` has been written since reset (10_state.md R33). -/
def State.written (s : State) (i : Fin 8) : Bool := s.regWritten.get i

/-- `x[i] <- v`; the register becomes written (00_scope.md R7, 10_state.md R23, R33). -/
def State.setReg (s : State) (i : Fin 8) (v : Byte) : State :=
  { s with regs := s.regs.set i v, regWritten := s.regWritten.set i true }

/-- A fresh free value (10_state.md R33, policy `draw`). -/
def State.drawn (s : State) : Byte := Config.drawByte s.draws

/-- The state after a fresh free value has been handed out. -/
def State.afterDraw (s : State) : State := { s with draws := s.draws + 1 }

/-- A read of register `i` gives a value: it is written, or the policy is not `fault`. -/
def State.regReadable (s : State) (i : Fin 8) : Bool := s.written i || s.uninit != .fault

/-- A read of register `i` draws a free value: it is unwritten and the policy is `draw`. -/
def State.regDraws (s : State) (i : Fin 8) : Bool := !s.written i && s.uninit == .draw

/-- The value a read of register `i` gives, where it gives one. -/
def State.regVal (s : State) (i : Fin 8) : Byte := if s.regDraws i then s.drawn else s.reg i

/-- The state after a read of register `i`. -/
def State.afterRegRead (s : State) (i : Fin 8) : State := if s.regDraws i then s.afterDraw else s

/-- `x[i]` as a rule reads it (00_scope.md R7, 10_state.md R33): under the policy `fault` an unwritten register raises. -/
def readReg (i : Fin 8) (s : State) : Except ErrKind (Byte × State) :=
  if s.regReadable i then .ok (s.regVal i, s.afterRegRead i)
  else .error (.uninitialisedRead .register i.val)

/-! ### Memory accesses -/

/-- A use of the contents of the cell at `a`, given as `l`, gives a value (`Use`, 40_cycle.md R85). -/
def State.latchReadable (s : State) (l : Option Byte) : Bool := l.isSome || s.uninit == .draw

/-- The value a use of `l` gives, where it gives one. -/
def State.latchVal (s : State) (l : Option Byte) : Byte := l.getD s.drawn

/-- The state after a use of `l`. -/
def State.afterLatch (s : State) (l : Option Byte) : State := if l.isSome then s else s.afterDraw

/-- `Use(l, addr)` (40_cycle.md R85): the latched byte if the cell was written; else as `UNINIT_POLICY` says, where `hold`
is as `fault` (log entry 2). -/
def useLatch (l : Option Byte) (addr : Nat) (s : State) : Except ErrKind (Byte × State) :=
  if s.latchReadable l then .ok (s.latchVal l, s.afterLatch l)
  else .error (.uninitialisedRead .memory addr)

/-- The raw contents of the cell at `addr`, written or not. -/
def State.cell (s : State) (addr : Nat) : Option Byte := s.mem.cell? addr

/-- The state with a byte stored in the cell at `addr`, which becomes written. -/
def State.setCell (s : State) (addr : Nat) (v : Byte) : State := { s with mem := s.mem.store addr v }

/-- `MemRead(addr, 1)` (20_memory.md R41). -/
def memRead (addr : Nat) (s : State) : Except ErrKind (Byte × State) :=
  if addr ≥ Config.memSize then .error (.outOfBoundsAccess .memory addr)
  else useLatch (s.cell addr) addr s

/-- `MemWrite(addr, 1, v)` (20_memory.md R42). -/
def memWrite (addr v : Nat) (s : State) : Except ErrKind State :=
  if addr ≥ Config.memSize then .error (.outOfBoundsAccess .memory addr)
  else .ok (s.setCell addr (trunc8 v))

/-! ### Stack pointer, pc, output and run state -/

/-- `sp - 1` wrapping (10_state.md R23): the cell PUSH and CALL store to. -/
def spBelow (sp : Byte) : Byte := sp - 1

/-- `sp + 1` wrapping (10_state.md R23). -/
def spAbove (sp : Byte) : Byte := sp + 1

/-- `sp <- trunc8(sp - 1)`, answering the new `sp`. -/
def decSp (s : State) : Except ErrKind (Byte × State) := do
  let (sp, s) ← readReg spIdx s
  pure (spBelow sp, s.setReg spIdx (spBelow sp))

/-- `sp <- trunc8(sp + 1)`. -/
def incSp (s : State) : Except ErrKind State := do
  let (sp, s) ← readReg spIdx s
  pure (s.setReg spIdx (spAbove sp))

/-- `pc <- target`. -/
def State.setPc (s : State) (target : Nat) : State := { s with pc := target }

/-- `Out(v)` (00_scope.md R7, 10_state.md R34). -/
def State.emit (s : State) (v : Byte) : State := { s with out := s.out ++ [v] }

/-- `run <- Halted` (45_io_control.md R141). -/
def State.halt (s : State) : State := { s with run := .halted }

/-! ### The error stop -/

/-- The numeric code of an error kind (60_exceptions.md R155, decision D8). -/
def errCode : ErrKind → Nat
  | .unrecognizedOpcode => 0x01
  | .outOfBoundsAccess _ _ => 0x02
  | .unsupportedArithmeticOperation => 0x03
  | .uninitialisedRead _ _ => 0x04

/-- The detail value the record holds beside the kind (60_exceptions.md R155, 10_state.md R35). -/
def errDetail : ErrKind → Option Nat
  | .unrecognizedOpcode => none
  | .outOfBoundsAccess _ n => some n
  | .unsupportedArithmeticOperation => none
  | .uninitialisedRead _ n => some n

/-- The error stop (60_exceptions.md R160): `s` is the state at the step's start, so every write of the step is discarded and
`fetch_pc` is its `pc`; `ir` is the opcode byte if it was fetched. -/
def State.raise (s : State) (ir : Option Byte) (e : ErrKind) : State :=
  { s with run := .faulted, err := some { kind := e, fetchPc := s.pc, ir := ir } }

/-- One instruction from the state at its `fetch_pc`: the pc advances first (40_cycle.md R86), then the body runs
(R87); an error of the body is raised from the state before the advance (R80, 60_exceptions.md R160). -/
def execute (i : Instr) (s : State) (body : State → Except ErrKind State) : Host.Outcome State Fault Refusal :=
  match body (s.setPc (s.pc + i.length)) with
  | .ok t => .next t
  | .error e => .next (s.raise (some i.opcode) e)

end Sys2Proof.Machine
end

