-- ==== Sys2Proof/Machine/Flags.lean ====
section
/-! DEFINITION. The arithmetic unit (spec 42_arithmetic.md R110). The core has no flags (10_state.md R30): the unit gives a
result and nothing else, so this file holds results only. -/

namespace Sys2Proof.Machine

/-- The operation handed to the unit; there are two, so `UnsupportedArithmeticOperation` cannot arise (60_exceptions.md
R162). -/
inductive AluOp where
  | add
  | mul
  deriving DecidableEq, Repr

/-- `va op vb` over the natural numbers. -/
def aluExact : AluOp → Nat → Nat → Nat
  | .add, x, y => x + y
  | .mul, x, y => x * y

/-- The unit's result, `trunc8(va op vb)` (42_arithmetic.md R110, R113). -/
def alu (op : AluOp) (va vb : Byte) : Byte := trunc8 (aluExact op va.toNat vb.toNat)

end Sys2Proof.Machine
end

