-- ==== Sys2Proof/Machine/Operands.lean ====
section
/-! DEFINITION. The two operand forms (spec 30_encoding.md section 2): a register operand and LDI's immediate. -/

namespace Sys2Proof.Machine

/-- A register operand (30_encoding.md R63, 10_state.md R24): the whole byte is the index; 8..255 raise. -/
def regOperand (a : Byte) : Except ErrKind (Fin 8) :=
  if h : a.toNat < 8 then .ok ⟨a.toNat, h⟩ else .error (.outOfBoundsAccess .register a.toNat)

/-- The operand byte that names register `r` (30_encoding.md R63, R70). -/
def regByte (r : Fin 8) : Byte := BitVec.ofNat 8 r.val

/-- An immediate operand (30_encoding.md R64): the byte is the value, with no extension, scaling or shift. -/
def immOperand (b : Byte) : Byte := b

end Sys2Proof.Machine
end

