-- ==== Sys2Proof/Machine/Arithmetic.lean ====
section
/-! DEFINITION. The arithmetic instructions ADD and MUL (spec 42_arithmetic.md). -/

namespace Sys2Proof.Machine

/-- `reg[a] = op(reg[a], reg[b])` (R110): both indexes are checked, then `x[a]` and `x[b]` are read, in this order. -/
def aluRegs (op : AluOp) (a b : Byte) (s : State) : Except ErrKind State := do
  let ra ← regOperand a
  let rb ← regOperand b
  let (va, s) ← readReg ra s
  let (vb, s) ← readReg rb s
  pure (s.setReg ra (alu op va vb))

/-- ADD (R111). -/
def execAdd (a b : Byte) (s : State) : Host.Outcome State Fault Refusal :=
  execute (.add a b) s (aluRegs .add a b)

/-- MUL (R112). -/
def execMul (a b : Byte) (s : State) : Host.Outcome State Fault Refusal :=
  execute (.mul a b) s (aluRegs .mul a b)

end Sys2Proof.Machine
end

