-- ==== Sys2Proof/Machine/DataMovement.lean ====
section
/-! DEFINITION. Data movement: LDI (spec 41_data_movement.md). -/

namespace Sys2Proof.Machine

/-- LDI (R100). -/
def execLdi (a b : Byte) (s : State) : Host.Outcome State Fault Refusal :=
  execute (.ldi a b) s fun s => do
    let ra ← regOperand a
    pure (s.setReg ra (immOperand b))

end Sys2Proof.Machine
end

