-- ==== Sys2Proof/Machine/IoControl.lean ====
section
/-! DEFINITION. Output and halt, PRN and HLT (spec 45_io_control.md). -/

namespace Sys2Proof.Machine

/-- PRN (R140): the 8-bit value goes to the output stream; its decimal rendering is the host's. -/
def execPrn (a : Byte) (s : State) : Host.Outcome State Fault Refusal :=
  execute (.prn a) s fun s => do
    let ra ← regOperand a
    let (v, s) ← readReg ra s
    pure (s.emit v)

/-- HLT (R141): only the run state changes; `pc` keeps the advanced value. -/
def execHlt (s : State) : Host.Outcome State Fault Refusal :=
  execute .hlt s fun s => pure s.halt

end Sys2Proof.Machine
end

