-- ==== Sys2Proof/Machine/Stack.lean ====
section
/-! DEFINITION. The stack instructions PUSH and POP (spec 43_stack.md). Each reads top to bottom (00_scope.md R9, decision
D9). -/

namespace Sys2Proof.Machine

/-- PUSH (R120): `x[a]` is read after the decrement, so `PUSH R7` stores the decremented `sp`. -/
def execPush (a : Byte) (s : State) : Host.Outcome State Fault Refusal :=
  execute (.push a) s fun s => do
    let ra ← regOperand a
    let (sp, s) ← decSp s
    let (v, s) ← readReg ra s
    memWrite sp.toNat v.toNat s

/-- POP (R121): `sp` is read again after the write of `x[a]`, so `POP R7` leaves the popped byte plus one. -/
def execPop (a : Byte) (s : State) : Host.Outcome State Fault Refusal :=
  execute (.pop a) s fun s => do
    let ra ← regOperand a
    let (sp, s) ← readReg spIdx s
    let (v, s) ← memRead sp.toNat s
    incSp (s.setReg ra v)

end Sys2Proof.Machine
end

