-- ==== Sys2Proof/Machine/Subroutine.lean ====
section
/-! DEFINITION. Subroutine call and return, CALL and RET (spec 44_subroutine.md), the only instructions that write `pc` after
the automatic advance (R133). -/

namespace Sys2Proof.Machine

/-- CALL (R130): `pc` has already advanced, so the byte stored is the return address; `x[a]` is read after the decrement and
the store. -/
def execCall (a : Byte) (s : State) : Host.Outcome State Fault Refusal :=
  execute (.call a) s fun s => do
    let ra ← regOperand a
    let (sp, s) ← decSp s
    let s ← memWrite sp.toNat s.pc s
    let (target, s) ← readReg ra s
    pure (s.setPc target.toNat)

/-- RET (R131). -/
def execRet (s : State) : Host.Outcome State Fault Refusal :=
  execute .ret s fun s => do
    let (sp, s) ← readReg spIdx s
    let (v, s) ← memRead sp.toNat s
    incSp (s.setPc v.toNat)

end Sys2Proof.Machine
end

