-- ==== Sys2Proof/Machine/Fetch.lean ====
section
/-! DEFINITION. Fetch, operand prefetch and decode, the first half of a step (spec 40_cycle.md R80 to R85). -/

namespace Sys2Proof.Machine

/-- An error of the fetch, with the opcode byte if it was fetched (10_state.md R35). -/
abbrev FetchError := Option Byte × ErrKind

/-- A computation that fails before or after the opcode byte `ir` is known. -/
def withIr {α : Type} (ir : Option Byte) (r : Except ErrKind α) : Except FetchError α :=
  match r with
  | .ok x => .ok x
  | .error e => .error (ir, e)

/-- The bounds checks on fetch and prefetch (R81, R82), in this order. -/
def fetchBounds (pc : Nat) : Except ErrKind Unit :=
  if pc ≥ Config.memSize then .error (.outOfBoundsAccess .fetch pc)
  else if pc + 2 ≥ Config.memSize then .error (.outOfBoundsAccess .prefetch Config.memSize)
  else .ok ()

/-- The operand in latch `l` of the cell at `addr`: used if the instruction has at least `k` operands, else ignored and
never checked (R83, R85). -/
def operandByte (k n : Nat) (l : Option Byte) (addr : Nat) (s : State) : Except ErrKind (Byte × State) :=
  if k ≤ n then useLatch l addr s else .ok (0, s)

/-- The operands of a recognised opcode byte (R85), `a` checked before `b`. -/
def fetchOperands (pc n : Nat) (la lb : Option Byte) (make : Byte → Byte → Instr) (s : State) :
    Except ErrKind (Instr × State) := do
  let (a, s) ← operandByte 1 n la (pc + 1) s
  let (b, s) ← operandByte 2 n lb (pc + 2) s
  pure (make a b, s)

/-- Fetch and decode at `pc` (R80): the bounds, the opcode byte and the two raw latches (R83), the dispatcher (R84), the used
operands (R85). The state it answers differs from `s` in the free values drawn alone. -/
def fetch (s : State) : Except FetchError (Instr × State) := do
  withIr none (fetchBounds s.pc)
  let (ir, s') ← withIr none (memRead s.pc s)
  let la := s.cell (s.pc + 1)
  let lb := s.cell (s.pc + 2)
  match opcodeMap ir with
  | none => .error (some ir, .unrecognizedOpcode)
  | some make => withIr (some ir) (fetchOperands s.pc (operandCount ir) la lb make s')

end Sys2Proof.Machine
end

