-- ==== Sys2Proof/Machine/Step.lean ====
section
/-! DEFINITION. One step of the core (spec 40_cycle.md R80), enabled only while `run = Running`. -/

namespace Sys2Proof.Machine

/-- One step: fetch and execute one instruction, or stop with an error (R80). A stopped core has no step (R88). -/
def step (s : State) : Host.Outcome State Fault Refusal :=
  match s.run with
  | .halted => .fault .coreHalted
  | .faulted => .fault .coreFaulted
  | .running =>
    match fetch s with
    | .error (ir, e) => .next (s.raise ir e)
    | .ok (i, s') => exec i s'

/-- `s` with the bytes of an opcode-table word stored where `step` fetches its next instruction. It stands for the host's
load (log entry 5); bytes that would lie above address 255 are left out. -/
def State.withFetchWord (s : State) (nbits w : Nat) : State :=
  { s with mem := s.mem.storeFrom s.pc ((tableBytes nbits w).take (Config.memSize - s.pc)) }

end Sys2Proof.Machine
end

