-- ==== Sys2Proof/Machine/HostPort.lean ====
section
/-! DEFINITION. The host's side of the interface (spec 70_reset_and_hazards.md R181, R184, R185; 60_exceptions.md R172): the
program load, the trace and the observation of an ended run. No step calls any of it. -/

namespace Sys2Proof.Machine

/-- The program load (R181): `none` is the refused load. It stands between reset and the first step. -/
def load (base : Nat) (image : List Byte) (s : State) : Option State :=
  if base + image.length > Config.memSize then none
  else some { s with mem := s.mem.storeFrom base image }

/-- What register `i` shows: no value while it is unwritten (R184, 10_state.md R33). -/
def State.shown (s : State) (i : Fin 8) : Option Byte := if s.written i then some (s.reg i) else none

/-- The observation of an ended run (R184). -/
structure Observation where
  run : RunState
  err : Option ErrRecord
  out : List Byte
  pc : Nat
  regs : List (Option Byte)
  mem : Memory
  deriving DecidableEq, Repr

/-- What the host may read of a state (R184, R185): written values only. -/
def observe (s : State) : Observation where
  run := s.run
  err := s.err
  out := s.out
  pc := s.pc
  regs := (List.finRange 8).map s.shown
  mem := s.mem

/-- The optional trace line at the start of a step (60_exceptions.md R172): `fetch_pc`, IR, the next two cells, the
registers. Which of them show a value is said at `trace`. -/
structure TraceLine where
  fetchPc : Nat
  ir : Option Byte
  la : Option Byte
  lb : Option Byte
  regs : List (Option Byte)
  deriving DecidableEq, Repr

/-- A raw cell for the trace, which reads no cell out of range (R172). -/
def traceCell (s : State) (addr : Nat) : Option Byte :=
  if addr < Config.memSize then s.cell addr else none

/-- The trace output (R172): a function of the state that changes nothing. DESIGN CHOICE (log entry 10): R172 does not say
what stands as IR where the step has no fetched opcode byte of that value (at 254 and 255, above 255, and at an unwritten
opcode cell, under `draw` too) nor for what is out of range or unwritten; the model shows the raw cell at `fetch_pc`, and no
value for a cell out of range, an unwritten cell or an unwritten register. -/
def trace (s : State) : TraceLine where
  fetchPc := s.pc
  ir := traceCell s s.pc
  la := traceCell s (s.pc + 1)
  lb := traceCell s (s.pc + 2)
  regs := (List.finRange 8).map s.shown

end Sys2Proof.Machine
end

