-- ==== Sys2Proof/WellFormed.lean ====
section
/-! DEFINITION. Which instructions are well formed: those with an assembler spelling (spec 30_encoding.md R67, R70), that is,
whose register operands name one of R0 to R7. Well-formedness restricts nothing the machine runs: an ill-formed one decodes
and its execution raises `OutOfBoundsAccess(REGISTER)`. -/

namespace Sys2Proof

/-- The byte names a register (30_encoding.md R63). -/
abbrev regOk (a : Byte) : Prop := a.toNat < Config.nRegs

/-- The register operands of the instruction, in encoding order (30_encoding.md R62, R63). -/
def Instr.regOperands : Instr → List Byte
  | .ldi a _ => [a]
  | .prn a => [a]
  | .hlt => []
  | .mul a b => [a, b]
  | .add a b => [a, b]
  | .push a => [a]
  | .pop a => [a]
  | .call a => [a]
  | .ret => []

/-- Every register operand names a register; LDI's immediate has no illegal value (30_encoding.md R64, R67). -/
abbrev Instr.WellFormed (i : Instr) : Prop := ∀ r ∈ i.regOperands, regOk r

end Sys2Proof
end

