-- ==== Sys2Proof/Safety.lean ====
section
/-! DEFINITION. What the claims are stated in: the invariant of a sound state, what an instruction keeps, the spec's list of
errors in their priority, and when two states show a host the same. -/

namespace Sys2Proof.Machine

/-- The nine opcode bytes of the opcode map (spec 30_encoding.md R65). -/
def nineOpcodes : List Byte := [0x82, 0x47, 0x01, 0xA2, 0xA0, 0x45, 0x46, 0x50, 0x11]

/-- The errors the core never raises (60_exceptions.md R155, R162). -/
def ErrKind.reserved : ErrKind → Bool
  | .unsupportedArithmeticOperation => true
  | .outOfBoundsAccess .memory _ => true
  | _ => false

/-- The invariant of every state a run reaches: memory in its canonical form, `pc` in 0..256 (10_state.md R25), the stack
pointer written (R36), an error record exactly while faulted (R35), which names the `pc` the core stopped at (60_exceptions.md
R160) and no reserved error. -/
structure State.Inv (s : State) : Prop where
  memWf : s.mem.wf
  pcBound : s.pc ≤ 256
  spWritten : s.written spIdx = true
  errIffFaulted : s.err.isSome = true ↔ s.run = .faulted
  errPrecise : ∀ e, s.err = some e → e.fetchPc = s.pc ∧ e.kind.reserved = false

/-- Every register outside `except` holds what it held and is written or not as it was. -/
def SameRegs (s t : State) (except : Fin 8 → Prop) : Prop :=
  ∀ r, ¬ except r → t.reg r = s.reg r ∧ t.written r = s.written r

/-- Every cell of memory outside `except` reads as before (its byte, or unwritten). -/
def SameMem (s t : State) (except : Nat → Prop) : Prop :=
  ∀ a, ¬ except a → t.cell a = s.cell a

/-- The run state and the error record are untouched, or the instruction made the error stop from the state it began in. -/
def GoesOnOrStops (i : Instr) (s t : State) : Prop :=
  (t.run = s.run ∧ t.err = s.err) ∨ ∃ e, t = s.raise (some i.opcode) e

/-- Whether the register that byte `a` names has been written; `false` for a byte that names none. -/
def State.writtenByte (s : State) (a : Byte) : Bool := if h : a.toNat < 8 then s.written ⟨a.toNat, h⟩ else false

/-- The errors a step may report under `UNINIT_POLICY = fault`, in the order of 60_exceptions.md R159, each with its
condition and with the opcode byte of its record. -/
def errorsInOrder (s : State) : List (Bool × Option Byte × ErrKind) :=
  let ir := (s.cell s.pc).getD 0
  let a := (s.cell (s.pc + 1)).getD 0
  let b := (s.cell (s.pc + 2)).getD 0
  let n := ir.toNat / 64
  let sp := (s.reg spIdx).toNat
  [ (255 < s.pc, none, .outOfBoundsAccess .fetch s.pc),
    (255 < s.pc + 2, none, .outOfBoundsAccess .prefetch 256),
    ((s.cell s.pc).isNone, none, .uninitialisedRead .memory s.pc),
    (!nineOpcodes.contains ir, some ir, .unrecognizedOpcode),
    (1 ≤ n && (s.cell (s.pc + 1)).isNone, some ir, .uninitialisedRead .memory (s.pc + 1)),
    (2 ≤ n && (s.cell (s.pc + 2)).isNone, some ir, .uninitialisedRead .memory (s.pc + 2)),
    (1 ≤ n && 7 < a.toNat, some ir, .outOfBoundsAccess .register a.toNat),
    ((ir == 0xA0 || ir == 0xA2) && 7 < b.toNat, some ir, .outOfBoundsAccess .register b.toNat),
    ([0xA0, 0xA2, 0x45, 0x50, 0x47].contains ir && !s.writtenByte a, some ir, .uninitialisedRead .register a.toNat),
    ((ir == 0xA0 || ir == 0xA2) && !s.writtenByte b, some ir, .uninitialisedRead .register b.toNat),
    ((ir == 0x46 || ir == 0x11) && (s.cell sp).isNone, some ir, .uninitialisedRead .memory sp) ]

/-- The two states show the host the same (70_reset_and_hazards.md R184) and take the same free values. -/
def SameShown (s t : State) : Prop := observe s = observe t ∧ s.uninit = t.uninit ∧ s.draws = t.draws

/-- Two outcomes of the same kind, their next states related by `R`. -/
def OutcomeRel (R : State → State → Prop) : Host.Outcome State Fault Refusal → Host.Outcome State Fault Refusal → Prop
  | .next s, .next t => R s t
  | .fault f, .fault g => f = g
  | .refused p, .refused q => p = q
  | _, _ => False

end Sys2Proof.Machine
end

