-- ==== Sys2Proof/Certificates/Slice0/Obligations.lean ====
section
/-! DEFINITION. The statements for the provers, from the numbered rules of spec/. Each docstring names the rules it formalises
or rests on. -/

open Sys2Proof Sys2Proof.Machine

/-! ### Encoding and decoding -/

/-- The nine rows of 30_encoding.md R65 as words written out bit by bit, operands 3 and 5: each decodes to its instruction. -/
def Obligations.OpcodeMapWordsDecode : Prop :=
  decode [0b10000010, 0b00000011, 0b00000101] = .ok (.ldi 3 5, []) ∧
  decode [0b01000111, 0b00000011] = .ok (.prn 3, []) ∧
  decode [0b00000001] = .ok (.hlt, []) ∧
  decode [0b10100010, 0b00000011, 0b00000101] = .ok (.mul 3 5, []) ∧
  decode [0b10100000, 0b00000011, 0b00000101] = .ok (.add 3 5, []) ∧
  decode [0b01000101, 0b00000011] = .ok (.push 3, []) ∧
  decode [0b01000110, 0b00000011] = .ok (.pop 3, []) ∧
  decode [0b01010000, 0b00000011] = .ok (.call 3, []) ∧
  decode [0b00010001] = .ok (.ret, [])

/-- A list of bytes decodes to an instruction exactly when it is that instruction's encoding followed by the bytes left over,
for every instruction and every operand byte (30_encoding.md R60 to R65). -/
def Obligations.DecodeIsTheInverseOfEncode : Prop :=
  ∀ (bytes rest : List Byte) (i : Instr), decode bytes = .ok (i, rest) ↔ bytes = encode i ++ rest

/-- Every byte outside the opcode map is illegal and raises `UnrecognizedOpcode` when fetched, whatever its operands are;
there are 247 of them, by bits 7:6 62, 60, 61 and 64 (30_encoding.md R66, 60_exceptions.md R157). What an unwritten opcode
cell does is in `OnlyUsedLatchesMatter`, `HoldPolicyReads` and `UnwrittenOpcodeIsDrawn`. -/
def Obligations.IllegalOpcodesRaiseUnrecognizedOpcode : Prop :=
  (∀ (s : State) (ir : Byte), s.run = .running → s.pc ≤ 253 → s.cell s.pc = some ir → ir ∉ nineOpcodes →
    step s = .next (s.raise (some ir) .unrecognizedOpcode)) ∧
  ((List.range 256).filter fun k => !nineOpcodes.contains (BitVec.ofNat 8 k)).length = 247 ∧
  (List.range 4).map (fun q =>
    ((List.range 64).filter fun k => !nineOpcodes.contains (BitVec.ofNat 8 (64 * q + k))).length) = [62, 60, 61, 64]

/-- An instruction takes `1 + ir[7:6]` bytes, found from its first byte alone, and a decoder that does not reject the opcode
rejects only for want of operand bytes (30_encoding.md R69). -/
def Obligations.LengthComesFromTheFirstByte : Prop :=
  ∀ (ir : Byte) (more : List Byte), ir ∈ nineOpcodes →
    (ir.toNat / 64 ≤ more.length ∧ ∃ i, decode (ir :: more) = .ok (i, more.drop (ir.toNat / 64)) ∧
        i.length = 1 + ir.toNat / 64) ∨
    (more.length < ir.toNat / 64 ∧ decode (ir :: more) = .error (.truncated ir))

/-! ### The cycle -/

/-- Where the bytes at `pc` decode to an instruction, well formed or not, a step of a running core is `exec` of it at the same
state (40_cycle.md R80, R87). Cells after the instruction's own bytes need not be written (R83). -/
def Obligations.StepRunsTheDecodedInstruction : Prop :=
  ∀ (s : State) (bytes rest : List Byte) (i : Instr), s.run = .running → s.pc ≤ 253 →
    (∀ (k : Nat) (v : Byte), bytes[k]? = some v → s.cell (s.pc + k) = some v) →
    decode bytes = .ok (i, rest) → step s = exec i s

/-- A stopped core has no step and nothing restarts it (40_cycle.md R88); which fault `step` then answers is the model's
choice (log entry 6). -/
def Obligations.StoppedCoreTakesNoStep : Prop :=
  (∀ s : State, s.run = .halted → step s = .fault .coreHalted) ∧
  (∀ s : State, s.run = .faulted → step s = .fault .coreFaulted) ∧
  (∀ s t : State, step s = .next t → s.run = .running)

/-- A fetch above address 255 raises `OutOfBoundsAccess(FETCH, fetch_pc)`; `pc` comes above 255 only as 256, from 253, and
CALL and RET never set it there (40_cycle.md R81). -/
def Obligations.FetchAboveMemoryRaises : Prop :=
  (∀ s : State, s.run = .running → 255 < s.pc → step s = .next (s.raise none (.outOfBoundsAccess .fetch s.pc))) ∧
  (∀ s t : State, step s = .next t → s.pc ≤ 255 → 255 < t.pc → s.pc = 253 ∧ t.pc = 256) ∧
  (∀ (s t : State) (a : Byte), exec (.call a) s = .next t → t.pc ≤ 255 ∨ ∃ e, t = s.raise (some 0x50) e) ∧
  (∀ s t : State, exec .ret s = .next t → t.pc ≤ 255 ∨ ∃ e, t = s.raise (some 0x11) e)

/-- At 254 and 255 a step raises `OutOfBoundsAccess(PREFETCH, 256)` whatever memory holds, before the opcode is fetched
(40_cycle.md R82). -/
def Obligations.PrefetchAboveMemoryRaises : Prop :=
  ∀ s : State, s.run = .running → s.pc = 254 ∨ s.pc = 255 →
    step s = .next (s.raise none (.outOfBoundsAccess .prefetch 256))

/-- An unwritten opcode cell raises under the policy `fault`; a latched byte the instruction does not use has no effect of any
kind on what is fetched, written or not; a HLT halts whatever follows it (40_cycle.md R83). The unwritten opcode cell under
`draw` is `UnwrittenOpcodeIsDrawn`. -/
def Obligations.OnlyUsedLatchesMatter : Prop :=
  (∀ s : State, s.run = .running → s.pc ≤ 253 → s.uninit = .fault → s.cell s.pc = none →
    step s = .next (s.raise none (.uninitialisedRead .memory s.pc))) ∧
  (∀ (s : State) (m : Memory) (ir : Byte), s.cell s.pc = some ir →
    (∀ k, k ≤ ir.toNat / 64 → Memory.cell? m (s.pc + k) = s.cell (s.pc + k)) →
    (fetch { s with mem := m }).map (·.1) = (fetch s).map (·.1)) ∧
  (∀ s : State, s.run = .running → s.pc ≤ 253 → s.cell s.pc = some 0x01 →
    step s = .next { s with run := .halted, pc := s.pc + 1 })

/-- The first `n` latches are the operands: written ones are used as they are, whatever the policy and whatever the unused
ones hold; an unwritten used one raises under the policy `fault`, `a` before `b`, and gives an arbitrary value under `draw`
(40_cycle.md R85). Which free values the last clause names, and that the counter numbers them in this order, is the model's
choice (log entry 3). -/
def Obligations.UsedOperandsFollowThePolicy : Prop :=
  ∀ (s : State) (ir : Byte) (make : Byte → Byte → Instr), s.run = .running → s.pc ≤ 253 → s.cell s.pc = some ir →
    opcodeMap ir = some make →
    (∀ a b : Byte, (1 ≤ ir.toNat / 64 → s.cell (s.pc + 1) = some a) → (ir.toNat / 64 = 2 → s.cell (s.pc + 2) = some b) →
      step s = exec (make a b) s) ∧
    (s.uninit = .fault → 1 ≤ ir.toNat / 64 → s.cell (s.pc + 1) = none →
      step s = .next (s.raise (some ir) (.uninitialisedRead .memory (s.pc + 1)))) ∧
    (s.uninit = .fault → ir.toNat / 64 = 2 → s.cell (s.pc + 1) ≠ none → s.cell (s.pc + 2) = none →
      step s = .next (s.raise (some ir) (.uninitialisedRead .memory (s.pc + 2)))) ∧
    (s.uninit = .draw → ∃ (a b : Byte) (d : Nat), step s = exec (make a b) { s with draws := d } ∧
      (1 ≤ ir.toNat / 64 → a = (s.cell (s.pc + 1)).getD (Config.drawByte s.draws)) ∧
      (ir.toNat / 64 = 2 → b = (s.cell (s.pc + 2)).getD
        (Config.drawByte (if (s.cell (s.pc + 1)).isSome then s.draws else s.draws + 1))))

/-- Which error a step reports under the policy `fault`: the first of the list of 60_exceptions.md R159 whose condition holds;
where none holds, the step completes without an error. The stack pointer is written in every state a run reaches
(`StepKeepsTheInvariant`). -/
def Obligations.StepReportsTheFirstErrorInOrder : Prop :=
  ∀ s : State, s.run = .running → s.uninit = .fault → s.written spIdx = true →
    match (errorsInOrder s).find? (·.1) with
    | some (_, ir, e) => step s = .next (s.raise ir e)
    | none => ∃ t, step s = .next t ∧ t.run ≠ .faulted ∧ t.err = s.err

/-! ### The instructions: result and completion, then where they trap -/

/-- LDI (41_data_movement.md R100): `x[a]` becomes `b`, unchanged, and written, and a read of it then gives `b`; `a > 7`
raises. Its bytes are `82 a b`. -/
def Obligations.LdiLoadsTheImmediate : Prop :=
  (∀ a b : Byte, encode (.ldi a b) = [0b10000010, a, b]) ∧
  (∀ (r : Fin 8) (b : Byte) (s : State), ∃ t, exec (.ldi (regByte r) b) s = .next t ∧
    t = { s with regs := s.regs.set r b, regWritten := s.regWritten.set r true, pc := s.pc + 3 } ∧
    readReg r t = .ok (b, t)) ∧
  (∀ (a b : Byte) (s : State), 7 < a.toNat →
    exec (.ldi a b) s = .next (s.raise (some 0x82) (.outOfBoundsAccess .register a.toNat)))

/-- ADD (42_arithmetic.md R111): `x[a] <- (x[a] + x[b]) mod 256`, `x[a]` read before `x[b]`; `a > 7`, then `b > 7`, then under
the policy `fault` an unwritten `x[a]`, then an unwritten `x[b]` raise. Its bytes are `A0 a b`. -/
def Obligations.AddWritesTheSumModulo256 : Prop :=
  (∀ a b : Byte, encode (.add a b) = [0b10100000, a, b]) ∧
  (∀ (ra rb : Fin 8) (s : State), s.regReadable ra → s.regReadable rb →
    exec (.add (regByte ra) (regByte rb)) s = .next { (s.afterRegRead ra).afterRegRead rb with
      regs := s.regs.set ra (BitVec.ofNat 8 ((s.regVal ra).toNat + ((s.afterRegRead ra).regVal rb).toNat)),
      regWritten := s.regWritten.set ra true, pc := s.pc + 3 }) ∧
  (∀ (a b : Byte) (s : State), 7 < a.toNat →
    exec (.add a b) s = .next (s.raise (some 0xA0) (.outOfBoundsAccess .register a.toNat))) ∧
  (∀ (ra : Fin 8) (b : Byte) (s : State), 7 < b.toNat →
    exec (.add (regByte ra) b) s = .next (s.raise (some 0xA0) (.outOfBoundsAccess .register b.toNat))) ∧
  (∀ (ra rb : Fin 8) (s : State), s.uninit = .fault → s.written ra = false →
    exec (.add (regByte ra) (regByte rb)) s = .next (s.raise (some 0xA0) (.uninitialisedRead .register ra.val))) ∧
  (∀ (ra rb : Fin 8) (s : State), s.uninit = .fault → s.written ra = true → s.written rb = false →
    exec (.add (regByte ra) (regByte rb)) s = .next (s.raise (some 0xA0) (.uninitialisedRead .register rb.val)))

/-- MUL (42_arithmetic.md R112): `x[a] <- (x[a] * x[b]) mod 256`; the errors as ADD's, in the same order. Its bytes are
`A2 a b`. -/
def Obligations.MulWritesTheProductModulo256 : Prop :=
  (∀ a b : Byte, encode (.mul a b) = [0b10100010, a, b]) ∧
  (∀ (ra rb : Fin 8) (s : State), s.regReadable ra → s.regReadable rb →
    exec (.mul (regByte ra) (regByte rb)) s = .next { (s.afterRegRead ra).afterRegRead rb with
      regs := s.regs.set ra (BitVec.ofNat 8 ((s.regVal ra).toNat * ((s.afterRegRead ra).regVal rb).toNat)),
      regWritten := s.regWritten.set ra true, pc := s.pc + 3 }) ∧
  (∀ (a b : Byte) (s : State), 7 < a.toNat →
    exec (.mul a b) s = .next (s.raise (some 0xA2) (.outOfBoundsAccess .register a.toNat))) ∧
  (∀ (ra : Fin 8) (b : Byte) (s : State), 7 < b.toNat →
    exec (.mul (regByte ra) b) s = .next (s.raise (some 0xA2) (.outOfBoundsAccess .register b.toNat))) ∧
  (∀ (ra rb : Fin 8) (s : State), s.uninit = .fault → s.written ra = false →
    exec (.mul (regByte ra) (regByte rb)) s = .next (s.raise (some 0xA2) (.uninitialisedRead .register ra.val))) ∧
  (∀ (ra rb : Fin 8) (s : State), s.uninit = .fault → s.written ra = true → s.written rb = false →
    exec (.mul (regByte ra) (regByte rb)) s = .next (s.raise (some 0xA2) (.uninitialisedRead .register rb.val)))

/-- PUSH (43_stack.md R120), `sp` being written: `sp` becomes `sp - 1` modulo 256 and the cell there `x[a]`, which for R7 is
the decremented `sp`; `a > 7` raises, and under the policy `fault` an unwritten `x[a]`. Its bytes are
`45 a`. -/
def Obligations.PushStoresBelowTheStackPointer : Prop :=
  (∀ a : Byte, encode (.push a) = [0b01000101, a]) ∧
  (∀ (r : Fin 8) (s : State), s.written spIdx = true → s.regReadable r → r ≠ spIdx →
    exec (.push (regByte r)) s = .next { s.afterRegRead r with
      regs := s.regs.set spIdx (s.reg spIdx - 1), regWritten := s.regWritten.set spIdx true,
      mem := Memory.store s.mem (s.reg spIdx - 1).toNat (s.regVal r), pc := s.pc + 2 }) ∧
  (∀ s : State, s.written spIdx = true →
    exec (.push 7) s = .next { s with
      regs := s.regs.set spIdx (s.reg spIdx - 1), regWritten := s.regWritten.set spIdx true,
      mem := Memory.store s.mem (s.reg spIdx - 1).toNat (s.reg spIdx - 1), pc := s.pc + 2 }) ∧
  (∀ (a : Byte) (s : State), 7 < a.toNat →
    exec (.push a) s = .next (s.raise (some 0x45) (.outOfBoundsAccess .register a.toNat))) ∧
  (∀ (r : Fin 8) (s : State), s.written spIdx = true → s.uninit = .fault → s.written r = false →
    exec (.push (regByte r)) s = .next (s.raise (some 0x45) (.uninitialisedRead .register r.val)))

/-- POP (43_stack.md R121), `sp` being written: `x[a]` becomes the byte at `sp` and `sp` becomes `sp + 1` modulo 256, which for
R7 is the popped byte plus one; `a > 7` raises, and under the policy `fault` an unwritten cell at `sp`. Its
bytes are `46 a`. -/
def Obligations.PopLoadsFromTheStackPointer : Prop :=
  (∀ a : Byte, encode (.pop a) = [0b01000110, a]) ∧
  (∀ (r : Fin 8) (s : State), s.written spIdx = true → s.latchReadable (s.cell (s.reg spIdx).toNat) → r ≠ spIdx →
    exec (.pop (regByte r)) s = .next { s.afterLatch (s.cell (s.reg spIdx).toNat) with
      regs := (s.regs.set r (s.latchVal (s.cell (s.reg spIdx).toNat))).set spIdx (s.reg spIdx + 1),
      regWritten := (s.regWritten.set r true).set spIdx true, pc := s.pc + 2 }) ∧
  (∀ s : State, s.written spIdx = true → s.latchReadable (s.cell (s.reg spIdx).toNat) →
    exec (.pop 7) s = .next { s.afterLatch (s.cell (s.reg spIdx).toNat) with
      regs := s.regs.set spIdx (s.latchVal (s.cell (s.reg spIdx).toNat) + 1),
      regWritten := s.regWritten.set spIdx true, pc := s.pc + 2 }) ∧
  (∀ (a : Byte) (s : State), 7 < a.toNat →
    exec (.pop a) s = .next (s.raise (some 0x46) (.outOfBoundsAccess .register a.toNat))) ∧
  (∀ (r : Fin 8) (s : State), s.written spIdx = true → s.uninit = .fault → s.cell (s.reg spIdx).toNat = none →
    exec (.pop (regByte r)) s = .next (s.raise (some 0x46) (.uninitialisedRead .memory (s.reg spIdx).toNat)))

/-- CALL (44_subroutine.md R130), `sp` being written: `sp` becomes `sp - 1` modulo 256, the cell there the return address
`fetch_pc + 2`, and `pc` the register's value, which for R7 is the decremented `sp`; `a > 7` raises, and under the policy
`fault` an unwritten `x[a]`. From every address that can be fetched from, the cell holds the whole return address. Its
bytes are `50 a`. -/
def Obligations.CallPushesTheReturnAddress : Prop :=
  (∀ a : Byte, encode (.call a) = [0b01010000, a]) ∧
  (∀ (r : Fin 8) (s : State), s.written spIdx = true → s.regReadable r → r ≠ spIdx →
    exec (.call (regByte r)) s = .next { s.afterRegRead r with
      regs := s.regs.set spIdx (s.reg spIdx - 1), regWritten := s.regWritten.set spIdx true,
      mem := Memory.store s.mem (s.reg spIdx - 1).toNat (BitVec.ofNat 8 (s.pc + 2)), pc := (s.regVal r).toNat }) ∧
  (∀ s : State, s.written spIdx = true →
    exec (.call 7) s = .next { s with
      regs := s.regs.set spIdx (s.reg spIdx - 1), regWritten := s.regWritten.set spIdx true,
      mem := Memory.store s.mem (s.reg spIdx - 1).toNat (BitVec.ofNat 8 (s.pc + 2)), pc := (s.reg spIdx - 1).toNat }) ∧
  (∀ (a : Byte) (s : State), 7 < a.toNat →
    exec (.call a) s = .next (s.raise (some 0x50) (.outOfBoundsAccess .register a.toNat))) ∧
  (∀ (r : Fin 8) (s : State), s.written spIdx = true → s.uninit = .fault → s.written r = false →
    exec (.call (regByte r)) s = .next (s.raise (some 0x50) (.uninitialisedRead .register r.val))) ∧
  (∀ s : State, s.pc ≤ 253 → (BitVec.ofNat 8 (s.pc + 2)).toNat = s.pc + 2)

/-- RET (44_subroutine.md R131), `sp` being written: `pc` becomes the byte at `sp` and `sp` becomes `sp + 1` modulo 256; under
the policy `fault` an unwritten cell at `sp` raises. Its byte is `11`. -/
def Obligations.RetPopsThePc : Prop :=
  encode .ret = [0b00010001] ∧
  (∀ s : State, s.written spIdx = true → s.latchReadable (s.cell (s.reg spIdx).toNat) →
    exec .ret s = .next { s.afterLatch (s.cell (s.reg spIdx).toNat) with
      regs := s.regs.set spIdx (s.reg spIdx + 1), regWritten := s.regWritten.set spIdx true,
      pc := (s.latchVal (s.cell (s.reg spIdx).toNat)).toNat }) ∧
  (∀ s : State, s.written spIdx = true → s.uninit = .fault → s.cell (s.reg spIdx).toNat = none →
    exec .ret s = .next (s.raise (some 0x11) (.uninitialisedRead .memory (s.reg spIdx).toNat)))

/-- PRN (45_io_control.md R140): one value is appended to the output and nothing else changes but `pc`; `a > 7` raises, and
under the policy `fault` an unwritten `x[a]`, and then nothing is emitted. Its bytes are `47 a`. -/
def Obligations.PrnEmitsTheRegister : Prop :=
  (∀ a : Byte, encode (.prn a) = [0b01000111, a]) ∧
  (∀ (r : Fin 8) (s : State), s.regReadable r →
    exec (.prn (regByte r)) s = .next { s.afterRegRead r with out := s.out ++ [s.regVal r], pc := s.pc + 2 }) ∧
  (∀ (a : Byte) (s : State), 7 < a.toNat →
    exec (.prn a) s = .next (s.raise (some 0x47) (.outOfBoundsAccess .register a.toNat))) ∧
  (∀ (r : Fin 8) (s : State), s.uninit = .fault → s.written r = false →
    exec (.prn (regByte r)) s = .next (s.raise (some 0x47) (.uninitialisedRead .register r.val))) ∧
  (∀ (a : Byte) (s t : State), exec (.prn a) s = .next t → t.run = .faulted → s.run = .running → t.out = s.out)

/-- HLT (45_io_control.md R141): the run state becomes `Halted`, `pc` keeps the advanced value, nothing else changes; no step
follows; at 254 and 255 the step raises instead. Its byte is `01`. -/
def Obligations.HltHaltsTheCore : Prop :=
  encode .hlt = [0b00000001] ∧
  (∀ s : State, exec .hlt s = .next { s with run := .halted, pc := s.pc + 1 }) ∧
  (∀ s t u : State, exec .hlt s = .next t → step t ≠ .next u) ∧
  (∀ s : State, s.run = .running → s.pc = 254 ∨ s.pc = 255 → s.cell s.pc = some 0x01 →
    step s = .next (s.raise none (.outOfBoundsAccess .prefetch 256)))

/-! ### Frames: what an instruction leaves unchanged when it answers a next state -/

/-- LDI, ADD and MUL change no register but `x[a]`, no cell of memory, no output and not the policy; the run state and the
error record stay, or the instruction made the error stop (41_data_movement.md R100, 42_arithmetic.md R111, R112). -/
def Obligations.RegisterInstructionsKeepTheRest : Prop :=
  ∀ (a b : Byte) (i : Instr), i = .ldi a b ∨ i = .add a b ∨ i = .mul a b → ∀ s t : State, exec i s = .next t →
    SameRegs s t (fun r => r.val = a.toNat) ∧ SameMem s t (fun _ => False) ∧
    t.out = s.out ∧ t.uninit = s.uninit ∧ GoesOnOrStops i s t

/-- PUSH and CALL change no register but `sp`, no cell of memory but the one at `sp - 1` (of the value a read of `sp` gives),
no output and not the policy (43_stack.md R120, 44_subroutine.md R130). -/
def Obligations.StoringInstructionsKeepTheRest : Prop :=
  ∀ (a : Byte) (i : Instr), i = .push a ∨ i = .call a → ∀ s t : State, exec i s = .next t →
    SameRegs s t (fun r => r = spIdx) ∧ SameMem s t (fun x => x = (spBelow (s.regVal spIdx)).toNat) ∧
    t.out = s.out ∧ t.uninit = s.uninit ∧ GoesOnOrStops i s t

/-- POP changes no register but `x[a]` and `sp`, RET none but `sp`; neither changes a cell of memory (the popped cell keeps
its value), the output or the policy (43_stack.md R121, 44_subroutine.md R131). -/
def Obligations.PoppingInstructionsKeepTheRest : Prop :=
  (∀ (a : Byte) (s t : State), exec (.pop a) s = .next t →
    SameRegs s t (fun r => r.val = a.toNat ∨ r = spIdx) ∧ SameMem s t (fun _ => False) ∧
    t.out = s.out ∧ t.uninit = s.uninit ∧ GoesOnOrStops (.pop a) s t) ∧
  (∀ s t : State, exec .ret s = .next t →
    SameRegs s t (fun r => r = spIdx) ∧ SameMem s t (fun _ => False) ∧
    t.out = s.out ∧ t.uninit = s.uninit ∧ GoesOnOrStops .ret s t)

/-- PRN and HLT change no register and no cell of memory; PRN adds at most one value to the output and HLT none; HLT changes
the run state to `Halted` and no error record (45_io_control.md R140, R141). -/
def Obligations.OutputAndHaltKeepTheRest : Prop :=
  (∀ (a : Byte) (s t : State), exec (.prn a) s = .next t →
    SameRegs s t (fun _ => False) ∧ SameMem s t (fun _ => False) ∧ t.uninit = s.uninit ∧
    (t.out = s.out ∨ ∃ v, t.out = s.out ++ [v]) ∧ GoesOnOrStops (.prn a) s t) ∧
  (∀ s t : State, exec .hlt s = .next t →
    SameRegs s t (fun _ => False) ∧ SameMem s t (fun _ => False) ∧ t.uninit = s.uninit ∧
    t.out = s.out ∧ t.err = s.err ∧ t.run = .halted)

/-! ### Register reads, memory accesses and the arithmetic unit -/

/-- A register read gives the register's value if it is written; if not, it raises under the policy `fault` and gives a fresh
arbitrary value under `draw` (10_state.md R33). That this value is `Config.drawByte` of a counter which the read advances is
the model's choice (log entry 3). -/
def Obligations.RegisterReadFollowsThePolicy : Prop :=
  ∀ (r : Fin 8) (s : State),
    (s.written r = true → readReg r s = .ok (s.reg r, s)) ∧
    (s.written r = false → s.uninit = .fault → readReg r s = .error (.uninitialisedRead .register r.val)) ∧
    (s.written r = false → s.uninit = .draw →
      readReg r s = .ok (Config.drawByte s.draws, { s with draws := s.draws + 1 }))

/-- `MemRead` checks the bound without reducing the address, gives a written cell's byte, and for an unwritten cell raises
under the policy `fault` and gives an arbitrary value under `draw` (20_memory.md R41). That this value is `Config.drawByte` of a
counter which the read advances is the model's choice (log entry 3). -/
def Obligations.MemReadFollowsThePolicy : Prop :=
  ∀ (addr : Nat) (s : State),
    (255 < addr → memRead addr s = .error (.outOfBoundsAccess .memory addr)) ∧
    (∀ v, addr ≤ 255 → s.cell addr = some v → memRead addr s = .ok (v, s)) ∧
    (addr ≤ 255 → s.cell addr = none → s.uninit = .fault → memRead addr s = .error (.uninitialisedRead .memory addr)) ∧
    (addr ≤ 255 → s.cell addr = none → s.uninit = .draw →
      memRead addr s = .ok (Config.drawByte s.draws, { s with draws := s.draws + 1 }))

/-- `MemWrite` checks the bound, stores the low 8 bits, makes the cell written, and leaves every other cell and every other
piece of state alone (20_memory.md R42). -/
def Obligations.MemWriteStoresOneByte : Prop :=
  ∀ (addr v : Nat) (s : State),
    (255 < addr → memWrite addr v s = .error (.outOfBoundsAccess .memory addr)) ∧
    (addr ≤ 255 → ∃ t, memWrite addr v s = .ok t ∧ t.cell addr = some (BitVec.ofNat 8 v) ∧
      (∀ b, b ≠ addr → t.cell b = s.cell b) ∧ t = { s with mem := t.mem })

/-- MODEL'S CHOICE (log entries 1 and 2): under the policy `hold` an unwritten register gives the value the state holds in it,
and an unwritten cell that is used raises as under `fault`: at any memory read, as the opcode, as operand `a` and then `b`,
and as the cell POP or RET reads. -/
def Obligations.HoldPolicyReads : Prop :=
  (∀ (r : Fin 8) (s : State), s.uninit = .hold → readReg r s = .ok (s.reg r, s)) ∧
  (∀ (addr : Nat) (s : State), s.uninit = .hold → addr ≤ 255 → s.cell addr = none →
    memRead addr s = .error (.uninitialisedRead .memory addr)) ∧
  (∀ s : State, s.run = .running → s.uninit = .hold → s.pc ≤ 253 → s.cell s.pc = none →
    step s = .next (s.raise none (.uninitialisedRead .memory s.pc))) ∧
  (∀ (s : State) (ir : Byte), s.run = .running → s.uninit = .hold → s.pc ≤ 253 → s.cell s.pc = some ir → ir ∈ nineOpcodes →
    (1 ≤ ir.toNat / 64 → s.cell (s.pc + 1) = none →
      step s = .next (s.raise (some ir) (.uninitialisedRead .memory (s.pc + 1)))) ∧
    (ir.toNat / 64 = 2 → s.cell (s.pc + 1) ≠ none → s.cell (s.pc + 2) = none →
      step s = .next (s.raise (some ir) (.uninitialisedRead .memory (s.pc + 2))))) ∧
  (∀ s : State, s.uninit = .hold → s.cell (s.reg spIdx).toNat = none →
    (∀ r : Fin 8, exec (.pop (regByte r)) s = .next (s.raise (some 0x46) (.uninitialisedRead .memory (s.reg spIdx).toNat))) ∧
    exec .ret s = .next (s.raise (some 0x11) (.uninitialisedRead .memory (s.reg spIdx).toNat)))

/-- The arithmetic unit computes modulo 256 over unsigned values (42_arithmetic.md R110, R113). -/
def Obligations.ArithmeticIsModulo256 : Prop :=
  ∀ va vb : Byte, (alu .add va vb).toNat = (va.toNat + vb.toNat) % 256 ∧
    (alu .mul va vb).toNat = (va.toNat * vb.toNat) % 256

/-! ### Errors -/

/-- The error stop is precise (60_exceptions.md R160): a step that ends faulted leaves every piece of state as it was at its
start but the run state and the error record (and the model's own draw counter); the record names `fetch_pc`, and the opcode
byte exactly where it was fetched. That an opcode byte drawn under `draw` counts as fetched is the model's reading (log entry 3,
DEDUCED), and that an unwritten opcode cell under `hold` gives none is its choice (log entry 2). -/
def Obligations.ErrorStopsArePrecise : Prop :=
  ∀ s t : State, step s = .next t → t.run = .faulted →
    ∃ e : ErrRecord, t = { s with run := .faulted, err := some e, draws := t.draws } ∧ e.fetchPc = s.pc ∧
      (e.ir = none ↔ 255 < s.pc + 2 ∨ (s.cell s.pc = none ∧ s.uninit ≠ .draw)) ∧
      (∀ ir, s.pc ≤ 253 → s.cell s.pc = some ir → e.ir = some ir)

/-- `UnsupportedArithmeticOperation` and `OutOfBoundsAccess(MEMORY)` are never raised (60_exceptions.md R155, R162). -/
def Obligations.ReservedErrorsAreNeverRaised : Prop :=
  ∀ (s t : State) (e : ErrRecord), step s = .next t → t.run = .faulted → t.err = some e →
    e.kind.reserved = false

/-- The numeric codes of the error kinds (60_exceptions.md R155, decision D8). -/
def Obligations.ErrorCodesAsAssigned : Prop :=
  errCode .unrecognizedOpcode = 0x01 ∧ (∀ k n, errCode (.outOfBoundsAccess k n) = 0x02) ∧
  errCode .unsupportedArithmeticOperation = 0x03 ∧ (∀ k n, errCode (.uninitialisedRead k n) = 0x04)

/-! ### Whole-machine rules -/

/-- Only HLT sets `Halted`, and only an error, which leaves an error record, sets `Faulted` (10_state.md R29). -/
def Obligations.OnlyHltHaltsAndOnlyErrorsFault : Prop :=
  ∀ (i : Instr) (s t : State), s.run = .running → exec i s = .next t →
    (t.run = .halted ↔ i = .hlt) ∧ (t.run = .faulted ↔ ∃ e, t = s.raise (some i.opcode) e)

/-- CALL and RET are the only instructions that change `pc` other than by the advance (44_subroutine.md R133, 10_state.md
R26); an instruction that stops with an error leaves it. -/
def Obligations.OnlyCallAndRetRedirectThePc : Prop :=
  ∀ (i : Instr) (s t : State), exec i s = .next t →
    t.pc = s.pc + i.length ∨ (∃ e, t = s.raise (some i.opcode) e) ∨ (∃ a, i = .call a) ∨ i = .ret

/-- Output is only appended to, one value per PRN and none by anything else; what was emitted stays (45_io_control.md R142,
10_state.md R34). -/
def Obligations.OutputGrowsByPrnAlone : Prop :=
  (∀ (i : Instr) (s t : State), exec i s = .next t →
    t.out = s.out ∨ ∃ (r : Fin 8) (v : Byte), i = .prn (regByte r) ∧ t.out = s.out ++ [v]) ∧
  (∀ s t : State, step s = .next t → s.out <+: t.out ∧ t.out.length ≤ s.out.length + 1)

/-- A byte stored by PUSH or CALL, R7 as their operand included, is what the next read of that cell gives, a fetch included,
with no fence (20_memory.md R48, R51). The storing instruction completes, and the cell below the old `sp` reads as the byte
stored; the next step runs what the bytes at the new `pc` decode to, the stored byte among them wherever it falls, as opcode or
as operand; and an illegal byte stored at the new `pc` raises. -/
def Obligations.StoredByteIsReadNext : Prop :=
  ∀ (i : Instr) (r : Fin 8) (v : Byte) (s : State), s.written spIdx = true → s.regReadable r →
    (i = .push (regByte r) ∧ v = (if r = spIdx then s.reg spIdx - 1 else s.regVal r)) ∨
      (i = .call (regByte r) ∧ v = BitVec.ofNat 8 (s.pc + 2)) →
    ∃ t, exec i s = .next t ∧ memRead (s.reg spIdx - 1).toNat t = .ok (v, t) ∧
      (∀ (bytes rest : List Byte) (j : Instr), s.run = .running → t.pc ≤ 253 →
        (∀ (k : Nat) (w : Byte), bytes[k]? = some w →
          (if t.pc + k = (s.reg spIdx - 1).toNat then v = w else s.cell (t.pc + k) = some w)) →
        decode bytes = .ok (j, rest) → step t = exec j t) ∧
      (s.run = .running → t.pc ≤ 253 → t.pc = (s.reg spIdx - 1).toNat → v ∉ nineOpcodes →
        step t = .next (t.raise (some v) .unrecognizedOpcode))

/-- PUSH then POP on the same register, R7 included, leaves the register and `sp` as they were (the source's property in
43_stack.md R121), whatever the policy, the register being written. -/
def Obligations.PushThenPopRestores : Prop :=
  ∀ (r : Fin 8) (s : State), s.written spIdx = true → s.written r = true →
    ∃ t u, exec (.push (regByte r)) s = .next t ∧ exec (.pop (regByte r)) t = .next u ∧
      SameRegs s u (fun _ => False) ∧ u.pc = s.pc + 4 ∧ u.out = s.out ∧ u.run = s.run ∧ u.err = s.err

/-- CALL then RET resumes after the CALL (44_subroutine.md R132): from any later state whose `sp` and return-address cell are
as CALL left them, RET sets `pc` to the address after CALL's operand and `sp` to what it was before the CALL. -/
def Obligations.CallThenRetResumesAfterTheCall : Prop :=
  ∀ (r : Fin 8) (s : State), s.pc ≤ 253 → s.written spIdx = true → s.regReadable r →
    ∃ t, exec (.call (regByte r)) s = .next t ∧
      ∀ u : State, u.reg spIdx = t.reg spIdx → u.written spIdx = true →
        u.cell (t.reg spIdx).toNat = t.cell (t.reg spIdx).toNat →
        ∃ v, exec .ret u = .next v ∧ v.pc = s.pc + 2 ∧ v.reg spIdx = s.reg spIdx ∧ v.run = u.run ∧
          SameRegs u v (fun x => x = spIdx)

/-! ### Reset, load and the invariant -/

/-- The state after reset and load (10_state.md R36), under any policy and for any image and base the load accepts: the
registers, `pc`, `run`, `err` and `out` as the table says, the image's cells written with its bytes, every other cell
unwritten. -/
def Obligations.StateAfterResetAndLoad : Prop :=
  ∀ (p : UninitPolicy) (base : Nat) (image : List Byte) (t : State), load base image (State.resetWith p) = some t →
    t.pc = 0 ∧ t.reg spIdx = 0xF4 ∧ t.written spIdx = true ∧ (∀ r, r ≠ spIdx → t.written r = false) ∧
    t.run = .running ∧ t.err = none ∧ t.out = [] ∧
    (∀ (k : Nat) (v : Byte), image[k]? = some v → t.cell (base + k) = some v) ∧
    (∀ a, a < base ∨ base + image.length ≤ a → t.cell a = none)

/-- The program load (70_reset_and_hazards.md R181): refused when the image does not fit, else the bytes go into contiguous
cells in order and nothing else changes. -/
def Obligations.LoadWritesTheImageInOrder : Prop :=
  ∀ (base : Nat) (image : List Byte) (s : State),
    (256 < base + image.length → load base image s = none) ∧
    (base + image.length ≤ 256 → ∃ t, load base image s = some t ∧ t = { s with mem := t.mem } ∧
      (∀ (k : Nat) (v : Byte), image[k]? = some v → t.cell (base + k) = some v) ∧
      SameMem s t (fun a => base ≤ a ∧ a < base + image.length))

/-- The state right after reset meets the invariant, under every `UNINIT_POLICY`, the spec's own `fault` and `draw` among them
(10_state.md R36). -/
def Obligations.ResetMeetsTheInvariant : Prop := State.reset.Inv ∧ ∀ p : UninitPolicy, (State.resetWith p).Inv

/-- An accepted load keeps the invariant (70_reset_and_hazards.md R181). -/
def Obligations.LoadKeepsTheInvariant : Prop :=
  ∀ (base : Nat) (image : List Byte) (s t : State), s.Inv → load base image s = some t → t.Inv

/-- Every step keeps the invariant (10_state.md R25, R35, R36, 60_exceptions.md R160). -/
def Obligations.StepKeepsTheInvariant : Prop :=
  ∀ s t : State, s.Inv → step s = .next t → t.Inv

/-- Under any policy but `draw` the core is deterministic in the spec's own state: the model's draw counter neither matters nor
moves; and no step changes the policy (40_cycle.md R89). -/
def Obligations.FreeValuesEnterUnderDrawAlone : Prop :=
  (∀ (s : State) (n : Nat), s.uninit ≠ .draw →
    OutcomeRel (fun t u => t.draws = s.draws ∧ u = { t with draws := n }) (step s) (step { s with draws := n })) ∧
  (∀ s t : State, step s = .next t → t.uninit = s.uninit ∧ s.draws ≤ t.draws)

/-- Under the spec's own policies no value of an unwritten register is given: two states that show the host the same take
steps that show it the same (70_reset_and_hazards.md R184, 10_state.md R33). -/
def Obligations.UnwrittenRegistersShowNoValue : Prop :=
  ∀ s t : State, s.uninit ≠ .hold → SameShown s t → OutcomeRel SameShown (step s) (step t)

/-- An unwritten opcode cell under `draw` gives an arbitrary byte as the opcode, no fixed one (40_cycle.md R83, 20_memory.md R41,
10_state.md R33): an illegal one makes the error stop `UnrecognizedOpcode`, a legal one runs, its unwritten used operands being
arbitrary values too (R85). Which free value each of them is, in which order, and that the drawn byte counts as fetched in the
error record, is the model's choice (log entry 3). -/
def Obligations.UnwrittenOpcodeIsDrawn : Prop :=
  ∀ s : State, s.run = .running → s.pc ≤ 253 → s.uninit = .draw → s.cell s.pc = none →
    if Config.drawByte s.draws ∈ nineOpcodes then
      ∃ (make : Byte → Byte → Instr) (a b : Byte) (d : Nat), opcodeMap (Config.drawByte s.draws) = some make ∧
        (make a b).opcode = Config.drawByte s.draws ∧ step s = exec (make a b) { s with draws := d } ∧
        (1 ≤ (Config.drawByte s.draws).toNat / 64 → a = (s.cell (s.pc + 1)).getD (Config.drawByte (s.draws + 1))) ∧
        ((Config.drawByte s.draws).toNat / 64 = 2 → b = (s.cell (s.pc + 2)).getD
          (Config.drawByte (if (s.cell (s.pc + 1)).isSome then s.draws + 1 else s.draws + 2)))
    else step s = .next (s.raise (some (Config.drawByte s.draws)) .unrecognizedOpcode)
end

