-- ==== Sys2Proof/Laws/Memory.lean ====
section
/-! SUPPORT. Memory: a read after a write, and every memory operation keeps the canonical form. -/

namespace Sys2Proof.Machine

namespace Memory

@[simp] theorem cell?_nil (a : Nat) : cell? [] a = none := rfl

theorem cell?_cons (p : Host.Cell) (m : Memory) (a : Nat) :
    cell? (p :: m) a = if p.1 = a then some p.2 else cell? m a := rfl

theorem cell?_store (m : Memory) (a : Nat) (v : Byte) (b : Nat) :
    cell? (store m a v) b = if b = a then some v else cell? m b := by
  induction m with
  | nil => simp [store, cell?_cons, eq_comm]
  | cons p m ih =>
    obtain ⟨k, w⟩ := p
    by_cases hb : b = a <;> simp only [store] <;> split_ifs <;> simp_all [cell?_cons] <;> grind

@[simp] theorem cell?_store_self (m : Memory) (a : Nat) (v : Byte) : cell? (store m a v) a = some v := by
  simp [cell?_store]

theorem cell?_store_other (m : Memory) {a b : Nat} (v : Byte) (h : b ≠ a) : cell? (store m a v) b = cell? m b := by
  simp [cell?_store, h]

/-- The cells of a memory after a store are its old cells and the one stored. -/
theorem mem_store {m : Memory} {a : Nat} {v : Byte} {p : Host.Cell} (h : p ∈ store m a v) : p = (a, v) ∨ p ∈ m := by
  induction m with
  | nil => simpa [store] using h
  | cons q m ih =>
    simp only [store] at h
    split_ifs at h <;> simp only [List.mem_cons] at h ⊢ <;> tauto

theorem store_wf {m : Memory} (h : wf m) {a : Nat} (v : Byte) (ha : a < Config.memSize) : wf (store m a v) := by
  refine ⟨?_, fun p hp => ?_⟩
  · have hs := h.1
    clear h
    induction m with
    | nil => simp [store]
    | cons q m ih =>
      obtain ⟨k, w⟩ := q
      obtain ⟨hq, hm⟩ := List.pairwise_cons.mp hs
      simp only [store]
      split_ifs with h1 h2
      · refine List.pairwise_cons.mpr ⟨fun p hp => ?_, hs⟩
        rcases List.mem_cons.mp hp with rfl | hp
        · exact h1
        · exact Nat.lt_trans h1 (hq p hp)
      · exact List.pairwise_cons.mpr ⟨fun p hp => h2 ▸ hq p hp, hm⟩
      · refine List.pairwise_cons.mpr ⟨fun p hp => ?_, ih hm⟩
        rcases mem_store hp with rfl | hp
        · show k < a; omega
        · exact hq p hp
  · rcases mem_store hp with rfl | hp
    · exact ha
    · exact h.2 p hp

theorem storeFrom_wf {m : Memory} (h : wf m) {a : Nat} {vs : List Byte} (ha : a + vs.length ≤ Config.memSize) :
    wf (storeFrom m a vs) := by
  induction vs generalizing m a with
  | nil => exact h
  | cons v vs ih =>
    simp only [List.length_cons] at ha
    exact ih (store_wf h v (by omega)) (by omega)

end Memory

theorem memWrite_wf {addr v : Nat} {s t : State} (h : memWrite addr v s = .ok t) (hs : s.mem.wf) : t.mem.wf := by
  unfold memWrite at h
  split_ifs at h with ha
  cases h
  exact Memory.store_wf hs _ (by omega)

theorem withFetchWord_wf (s : State) (nbits w : Nat) (hs : s.mem.wf) : (s.withFetchWord nbits w).mem.wf := by
  by_cases hp : s.pc ≤ Config.memSize
  · exact Memory.storeFrom_wf hs (by simp only [List.length_take]; omega)
  · have : Config.memSize - s.pc = 0 := by omega
    simpa [State.withFetchWord, this, Memory.storeFrom] using hs

theorem load_wf {base : Nat} {image : List Byte} {s t : State} (h : load base image s = some t) (hs : s.mem.wf) :
    t.mem.wf := by
  unfold load at h
  split_ifs at h with hl
  cases h
  exact Memory.storeFrom_wf hs (by omega)

theorem reset_mem_wf (p : UninitPolicy) : (State.resetWith p).mem.wf := by
  simp [State.resetWith, Memory.wf]

end Sys2Proof.Machine
end

