-- ==== Sys2Proof/Laws/State.lean ====
section
/-! SUPPORT. One lemma per field per update of the state, and the register accessors over the updates. -/

namespace Sys2Proof.Machine

variable (s : State)

/-! ### `State.setReg` -/

@[simp] theorem State.setReg_regs (i : Fin 8) (v : Byte) : (s.setReg i v).regs = s.regs.set i v := rfl
@[simp] theorem State.setReg_regWritten (i : Fin 8) (v : Byte) : (s.setReg i v).regWritten = s.regWritten.set i true := rfl
@[simp] theorem State.setReg_pc (i : Fin 8) (v : Byte) : (s.setReg i v).pc = s.pc := rfl
@[simp] theorem State.setReg_mem (i : Fin 8) (v : Byte) : (s.setReg i v).mem = s.mem := rfl
@[simp] theorem State.setReg_run (i : Fin 8) (v : Byte) : (s.setReg i v).run = s.run := rfl
@[simp] theorem State.setReg_err (i : Fin 8) (v : Byte) : (s.setReg i v).err = s.err := rfl
@[simp] theorem State.setReg_out (i : Fin 8) (v : Byte) : (s.setReg i v).out = s.out := rfl
@[simp] theorem State.setReg_uninit (i : Fin 8) (v : Byte) : (s.setReg i v).uninit = s.uninit := rfl
@[simp] theorem State.setReg_draws (i : Fin 8) (v : Byte) : (s.setReg i v).draws = s.draws := rfl

/-! ### `State.setPc` -/

@[simp] theorem State.setPc_regs (n : Nat) : (s.setPc n).regs = s.regs := rfl
@[simp] theorem State.setPc_regWritten (n : Nat) : (s.setPc n).regWritten = s.regWritten := rfl
@[simp] theorem State.setPc_pc (n : Nat) : (s.setPc n).pc = n := rfl
@[simp] theorem State.setPc_mem (n : Nat) : (s.setPc n).mem = s.mem := rfl
@[simp] theorem State.setPc_run (n : Nat) : (s.setPc n).run = s.run := rfl
@[simp] theorem State.setPc_err (n : Nat) : (s.setPc n).err = s.err := rfl
@[simp] theorem State.setPc_out (n : Nat) : (s.setPc n).out = s.out := rfl
@[simp] theorem State.setPc_uninit (n : Nat) : (s.setPc n).uninit = s.uninit := rfl
@[simp] theorem State.setPc_draws (n : Nat) : (s.setPc n).draws = s.draws := rfl

/-! ### `State.emit` -/

@[simp] theorem State.emit_regs (v : Byte) : (s.emit v).regs = s.regs := rfl
@[simp] theorem State.emit_regWritten (v : Byte) : (s.emit v).regWritten = s.regWritten := rfl
@[simp] theorem State.emit_pc (v : Byte) : (s.emit v).pc = s.pc := rfl
@[simp] theorem State.emit_mem (v : Byte) : (s.emit v).mem = s.mem := rfl
@[simp] theorem State.emit_run (v : Byte) : (s.emit v).run = s.run := rfl
@[simp] theorem State.emit_err (v : Byte) : (s.emit v).err = s.err := rfl
@[simp] theorem State.emit_out (v : Byte) : (s.emit v).out = s.out ++ [v] := rfl
@[simp] theorem State.emit_uninit (v : Byte) : (s.emit v).uninit = s.uninit := rfl
@[simp] theorem State.emit_draws (v : Byte) : (s.emit v).draws = s.draws := rfl

/-! ### `State.halt` -/

@[simp] theorem State.halt_regs : (s.halt).regs = s.regs := rfl
@[simp] theorem State.halt_regWritten : (s.halt).regWritten = s.regWritten := rfl
@[simp] theorem State.halt_pc : (s.halt).pc = s.pc := rfl
@[simp] theorem State.halt_mem : (s.halt).mem = s.mem := rfl
@[simp] theorem State.halt_run : (s.halt).run = .halted := rfl
@[simp] theorem State.halt_err : (s.halt).err = s.err := rfl
@[simp] theorem State.halt_out : (s.halt).out = s.out := rfl
@[simp] theorem State.halt_uninit : (s.halt).uninit = s.uninit := rfl
@[simp] theorem State.halt_draws : (s.halt).draws = s.draws := rfl

/-! ### `State.afterDraw` -/

@[simp] theorem State.afterDraw_regs : (s.afterDraw).regs = s.regs := rfl
@[simp] theorem State.afterDraw_regWritten : (s.afterDraw).regWritten = s.regWritten := rfl
@[simp] theorem State.afterDraw_pc : (s.afterDraw).pc = s.pc := rfl
@[simp] theorem State.afterDraw_mem : (s.afterDraw).mem = s.mem := rfl
@[simp] theorem State.afterDraw_run : (s.afterDraw).run = s.run := rfl
@[simp] theorem State.afterDraw_err : (s.afterDraw).err = s.err := rfl
@[simp] theorem State.afterDraw_out : (s.afterDraw).out = s.out := rfl
@[simp] theorem State.afterDraw_uninit : (s.afterDraw).uninit = s.uninit := rfl
@[simp] theorem State.afterDraw_draws : (s.afterDraw).draws = s.draws + 1 := rfl

/-! ### `State.raise` -/

@[simp] theorem State.raise_regs (ir : Option Byte) (e : ErrKind) : (s.raise ir e).regs = s.regs := rfl
@[simp] theorem State.raise_regWritten (ir : Option Byte) (e : ErrKind) : (s.raise ir e).regWritten = s.regWritten := rfl
@[simp] theorem State.raise_pc (ir : Option Byte) (e : ErrKind) : (s.raise ir e).pc = s.pc := rfl
@[simp] theorem State.raise_mem (ir : Option Byte) (e : ErrKind) : (s.raise ir e).mem = s.mem := rfl
@[simp] theorem State.raise_run (ir : Option Byte) (e : ErrKind) : (s.raise ir e).run = .faulted := rfl
@[simp] theorem State.raise_err (ir : Option Byte) (e : ErrKind) : (s.raise ir e).err = some { kind := e, fetchPc := s.pc, ir := ir } := rfl
@[simp] theorem State.raise_out (ir : Option Byte) (e : ErrKind) : (s.raise ir e).out = s.out := rfl
@[simp] theorem State.raise_uninit (ir : Option Byte) (e : ErrKind) : (s.raise ir e).uninit = s.uninit := rfl
@[simp] theorem State.raise_draws (ir : Option Byte) (e : ErrKind) : (s.raise ir e).draws = s.draws := rfl

/-! ### `State.setCell` -/

@[simp] theorem State.setCell_mem (a : Nat) (v : Byte) : (s.setCell a v).mem = s.mem.store a v := rfl
@[simp] theorem State.setCell_regs (a : Nat) (v : Byte) : (s.setCell a v).regs = s.regs := rfl
@[simp] theorem State.setCell_regWritten (a : Nat) (v : Byte) : (s.setCell a v).regWritten = s.regWritten := rfl
@[simp] theorem State.setCell_pc (a : Nat) (v : Byte) : (s.setCell a v).pc = s.pc := rfl
@[simp] theorem State.setCell_run (a : Nat) (v : Byte) : (s.setCell a v).run = s.run := rfl
@[simp] theorem State.setCell_err (a : Nat) (v : Byte) : (s.setCell a v).err = s.err := rfl
@[simp] theorem State.setCell_out (a : Nat) (v : Byte) : (s.setCell a v).out = s.out := rfl
@[simp] theorem State.setCell_uninit (a : Nat) (v : Byte) : (s.setCell a v).uninit = s.uninit := rfl
@[simp] theorem State.setCell_draws (a : Nat) (v : Byte) : (s.setCell a v).draws = s.draws := rfl

/-! ### The accessors over the updates -/

theorem State.reg_congr {t : State} (h : t.regs = s.regs) (r : Fin 8) : t.reg r = s.reg r := by
  simp [State.reg, h]

theorem State.written_congr {t : State} (h : t.regWritten = s.regWritten) (r : Fin 8) : t.written r = s.written r := by
  simp [State.written, h]

theorem State.cell_congr {t : State} (h : t.mem = s.mem) (a : Nat) : t.cell a = s.cell a := by
  simp [State.cell, h]

theorem State.setReg_reg (i r : Fin 8) (v : Byte) : (s.setReg i v).reg r = if r = i then v else s.reg r := by
  have h : i.val = r.val ↔ r = i := by omega
  simp only [State.reg, State.setReg, Vector.get_eq_getElem, Vector.getElem_set, h]

theorem State.setReg_written (i r : Fin 8) (v : Byte) :
    (s.setReg i v).written r = if r = i then true else s.written r := by
  have h : i.val = r.val ↔ r = i := by omega
  simp only [State.written, State.setReg, Vector.get_eq_getElem, Vector.getElem_set, h]

@[simp] theorem State.setReg_reg_self (i : Fin 8) (v : Byte) : (s.setReg i v).reg i = v := by
  simp [State.setReg_reg]

@[simp] theorem State.setReg_written_self (i : Fin 8) (v : Byte) : (s.setReg i v).written i = true := by
  simp [State.setReg_written]

theorem State.setReg_reg_other {i r : Fin 8} (h : r ≠ i) (v : Byte) : (s.setReg i v).reg r = s.reg r := by
  simp [State.setReg_reg, h]

theorem State.setReg_written_other {i r : Fin 8} (h : r ≠ i) (v : Byte) : (s.setReg i v).written r = s.written r := by
  simp [State.setReg_written, h]

@[simp] theorem State.setReg_cell (i : Fin 8) (v : Byte) (x : Nat) : (s.setReg i v).cell x = s.cell x := rfl
@[simp] theorem State.setPc_reg (n : Nat) (r : Fin 8) : (s.setPc n).reg r = s.reg r := rfl
@[simp] theorem State.setPc_written (n : Nat) (r : Fin 8) : (s.setPc n).written r = s.written r := rfl
@[simp] theorem State.setPc_cell (n : Nat) (x : Nat) : (s.setPc n).cell x = s.cell x := rfl
@[simp] theorem State.emit_reg (v : Byte) (r : Fin 8) : (s.emit v).reg r = s.reg r := rfl
@[simp] theorem State.emit_written (v : Byte) (r : Fin 8) : (s.emit v).written r = s.written r := rfl
@[simp] theorem State.emit_cell (v : Byte) (x : Nat) : (s.emit v).cell x = s.cell x := rfl
@[simp] theorem State.halt_reg (r : Fin 8) : (s.halt).reg r = s.reg r := rfl
@[simp] theorem State.halt_written (r : Fin 8) : (s.halt).written r = s.written r := rfl
@[simp] theorem State.halt_cell (x : Nat) : (s.halt).cell x = s.cell x := rfl
@[simp] theorem State.afterDraw_reg (r : Fin 8) : (s.afterDraw).reg r = s.reg r := rfl
@[simp] theorem State.afterDraw_written (r : Fin 8) : (s.afterDraw).written r = s.written r := rfl
@[simp] theorem State.afterDraw_cell (x : Nat) : (s.afterDraw).cell x = s.cell x := rfl
@[simp] theorem State.raise_reg (ir : Option Byte) (e : ErrKind) (r : Fin 8) : (s.raise ir e).reg r = s.reg r := rfl
@[simp] theorem State.raise_written (ir : Option Byte) (e : ErrKind) (r : Fin 8) : (s.raise ir e).written r = s.written r := rfl
@[simp] theorem State.raise_cell (ir : Option Byte) (e : ErrKind) (x : Nat) : (s.raise ir e).cell x = s.cell x := rfl
@[simp] theorem State.setCell_reg (a : Nat) (v : Byte) (r : Fin 8) : (s.setCell a v).reg r = s.reg r := rfl
@[simp] theorem State.setCell_written (a : Nat) (v : Byte) (r : Fin 8) : (s.setCell a v).written r = s.written r := rfl

theorem State.setCell_cell (a : Nat) (v : Byte) (x : Nat) :
    (s.setCell a v).cell x = if x = a then some v else s.cell x := Memory.cell?_store _ _ _ _

@[simp] theorem State.setCell_cell_self (a : Nat) (v : Byte) : (s.setCell a v).cell a = some v := by
  simp [State.setCell_cell]

theorem State.setCell_cell_other {a x : Nat} (h : x ≠ a) (v : Byte) : (s.setCell a v).cell x = s.cell x := by
  simp [State.setCell_cell, h]

end Sys2Proof.Machine
end

