-- ==== Sys2Proof/Laws/Ops.lean ====
section
/-! SUPPORT. One lemma per shared operation: what it can do where it answers, and when it answers. -/

namespace Sys2Proof.Machine

/-! ### Operands and the arithmetic unit -/

theorem regOperand_ok {a : Byte} {r : Fin 8} (h : regOperand a = .ok r) : r.val = a.toNat := by
  unfold regOperand at h
  split_ifs at h
  cases h
  rfl

theorem regOperand_error {a : Byte} (h : 7 < a.toNat) : regOperand a = .error (.outOfBoundsAccess .register a.toNat) := by
  simp [regOperand, show ¬ a.toNat < 8 by omega]

@[simp] theorem regByte_toNat (r : Fin 8) : (regByte r).toNat = r.val := by
  simp only [regByte, BitVec.toNat_ofNat]
  omega

@[simp] theorem regOperand_regByte (r : Fin 8) : regOperand (regByte r) = .ok r := by
  simp [regOperand]

/-- A byte that names a register is some `regByte`. -/
theorem eq_regByte_of_regOperand {a : Byte} {r : Fin 8} (h : regOperand a = .ok r) : a = regByte r := by
  apply BitVec.eq_of_toNat_eq
  rw [regByte_toNat, regOperand_ok h]

/-! ### When a read answers -/

theorem State.regReadable_iff {s : State} {i : Fin 8} : s.regReadable i ↔ s.written i = true ∨ s.uninit ≠ .fault := by
  simp [State.regReadable]

theorem State.regDraws_iff {s : State} {i : Fin 8} : s.regDraws i ↔ s.written i = false ∧ s.uninit = .draw := by
  simp [State.regDraws]

theorem State.latchReadable_iff {s : State} {l : Option Byte} :
    s.latchReadable l ↔ l.isSome = true ∨ s.uninit = .draw := by
  simp [State.latchReadable]

theorem State.regReadable_of_written {s : State} {i : Fin 8} (h : s.written i = true) : s.regReadable i :=
  State.regReadable_iff.mpr (.inl h)

theorem State.regReadable_congr {s t : State} {i j : Fin 8} (h : t.written j = s.written i) (hu : t.uninit = s.uninit) :
    t.regReadable j = s.regReadable i := by
  simp [State.regReadable, h, hu]

theorem State.regDraws_congr {s t : State} {i j : Fin 8} (h : t.written j = s.written i) (hu : t.uninit = s.uninit) :
    t.regDraws j = s.regDraws i := by
  simp [State.regDraws, h, hu]

/-! ### Reads: the state after a read differs in the draw counter alone -/

section
variable (s : State) (r : Fin 8) (l : Option Byte)

theorem State.afterRegRead_cases : s.afterRegRead r = s ∨ (s.uninit = .draw ∧ s.afterRegRead r = s.afterDraw) := by
  unfold State.afterRegRead
  split_ifs with h
  · exact .inr ⟨(State.regDraws_iff.mp h).2, rfl⟩
  · exact .inl rfl

theorem State.afterLatch_cases : s.afterLatch l = s ∨ (l = none ∧ s.afterLatch l = s.afterDraw) := by
  cases l
  · exact .inr ⟨rfl, rfl⟩
  · exact .inl rfl

/-- The draw counter never goes back. -/
theorem State.le_afterRegRead_draws {d : Nat} (h : d ≤ s.draws) : d ≤ (s.afterRegRead r).draws := by
  rcases s.afterRegRead_cases r with e | ⟨-, e⟩ <;> rw [e]
  · exact h
  · exact Nat.le_succ_of_le h

theorem State.le_afterLatch_draws {d : Nat} (h : d ≤ s.draws) : d ≤ (s.afterLatch l).draws := by
  rcases s.afterLatch_cases l with e | ⟨-, e⟩ <;> rw [e]
  · exact h
  · exact Nat.le_succ_of_le h

@[simp] theorem State.afterRegRead_regs : (s.afterRegRead r).regs = s.regs := by unfold afterRegRead; split_ifs <;> rfl
@[simp] theorem State.afterRegRead_regWritten : (s.afterRegRead r).regWritten = s.regWritten := by
  unfold afterRegRead; split_ifs <;> rfl
@[simp] theorem State.afterRegRead_pc : (s.afterRegRead r).pc = s.pc := by unfold afterRegRead; split_ifs <;> rfl
@[simp] theorem State.afterRegRead_mem : (s.afterRegRead r).mem = s.mem := by unfold afterRegRead; split_ifs <;> rfl
@[simp] theorem State.afterRegRead_run : (s.afterRegRead r).run = s.run := by unfold afterRegRead; split_ifs <;> rfl
@[simp] theorem State.afterRegRead_err : (s.afterRegRead r).err = s.err := by unfold afterRegRead; split_ifs <;> rfl
@[simp] theorem State.afterRegRead_out : (s.afterRegRead r).out = s.out := by unfold afterRegRead; split_ifs <;> rfl
@[simp] theorem State.afterRegRead_uninit : (s.afterRegRead r).uninit = s.uninit := by
  unfold afterRegRead; split_ifs <;> rfl
@[simp] theorem State.afterRegRead_reg (x : Fin 8) : (s.afterRegRead r).reg x = s.reg x :=
  State.reg_congr _ (by simp) x
@[simp] theorem State.afterRegRead_written (x : Fin 8) : (s.afterRegRead r).written x = s.written x :=
  State.written_congr _ (by simp) x
@[simp] theorem State.afterRegRead_cell (a : Nat) : (s.afterRegRead r).cell a = s.cell a :=
  State.cell_congr _ (by simp) a

@[simp] theorem State.afterLatch_regs : (s.afterLatch l).regs = s.regs := by unfold afterLatch; split_ifs <;> rfl
@[simp] theorem State.afterLatch_regWritten : (s.afterLatch l).regWritten = s.regWritten := by
  unfold afterLatch; split_ifs <;> rfl
@[simp] theorem State.afterLatch_pc : (s.afterLatch l).pc = s.pc := by unfold afterLatch; split_ifs <;> rfl
@[simp] theorem State.afterLatch_mem : (s.afterLatch l).mem = s.mem := by unfold afterLatch; split_ifs <;> rfl
@[simp] theorem State.afterLatch_run : (s.afterLatch l).run = s.run := by unfold afterLatch; split_ifs <;> rfl
@[simp] theorem State.afterLatch_err : (s.afterLatch l).err = s.err := by unfold afterLatch; split_ifs <;> rfl
@[simp] theorem State.afterLatch_out : (s.afterLatch l).out = s.out := by unfold afterLatch; split_ifs <;> rfl
@[simp] theorem State.afterLatch_uninit : (s.afterLatch l).uninit = s.uninit := by
  unfold afterLatch; split_ifs <;> rfl
@[simp] theorem State.afterLatch_reg (x : Fin 8) : (s.afterLatch l).reg x = s.reg x :=
  State.reg_congr _ (by simp) x
@[simp] theorem State.afterLatch_written (x : Fin 8) : (s.afterLatch l).written x = s.written x :=
  State.written_congr _ (by simp) x
@[simp] theorem State.afterLatch_cell (a : Nat) : (s.afterLatch l).cell a = s.cell a :=
  State.cell_congr _ (by simp) a

end

@[simp] theorem State.setPc_regVal (s : State) (n : Nat) (r : Fin 8) : (s.setPc n).regVal r = s.regVal r := rfl
@[simp] theorem State.setCell_regVal (s : State) (a : Nat) (v : Byte) (r : Fin 8) :
    (s.setCell a v).regVal r = s.regVal r := rfl
@[simp] theorem State.setCell_regReadable (s : State) (a : Nat) (v : Byte) (r : Fin 8) :
    (s.setCell a v).regReadable r = s.regReadable r := rfl
theorem State.afterRegRead_setCell (s : State) (a : Nat) (v : Byte) (r : Fin 8) :
    (s.setCell a v).afterRegRead r = (s.afterRegRead r).setCell a v := by
  unfold State.afterRegRead
  simp only [State.regDraws_congr (s := s) (t := s.setCell a v) (i := r) rfl rfl]
  split_ifs <;> rfl

/-- A read of another register than the one just written. -/
theorem State.setReg_regVal_other (s : State) {i r : Fin 8} (h : r ≠ i) (v : Byte) :
    (s.setReg i v).regVal r = s.regVal r := by
  unfold State.regVal
  rw [State.regDraws_congr (State.setReg_written_other s h v) (State.setReg_uninit s i v), State.setReg_reg_other s h]
  rfl
theorem State.setReg_regReadable_other (s : State) {i r : Fin 8} (h : r ≠ i) (v : Byte) :
    (s.setReg i v).regReadable r = s.regReadable r :=
  State.regReadable_congr (State.setReg_written_other s h v) (State.setReg_uninit s i v)
theorem State.afterRegRead_setReg_other (s : State) {i r : Fin 8} (h : r ≠ i) (v : Byte) :
    (s.setReg i v).afterRegRead r = (s.afterRegRead r).setReg i v := by
  unfold State.afterRegRead
  rw [State.regDraws_congr (State.setReg_written_other s h v) (State.setReg_uninit s i v)]
  split_ifs <;> rfl

@[simp] theorem State.setPc_regReadable (s : State) (n : Nat) (r : Fin 8) :
    (s.setPc n).regReadable r = s.regReadable r := rfl
@[simp] theorem State.setPc_latchReadable (s : State) (n : Nat) (l : Option Byte) :
    (s.setPc n).latchReadable l = s.latchReadable l := rfl
@[simp] theorem State.afterRegRead_regReadable (s : State) (r x : Fin 8) :
    (s.afterRegRead r).regReadable x = s.regReadable x := State.regReadable_congr (by simp) (by simp)
@[simp] theorem State.afterRegRead_latchReadable (s : State) (r : Fin 8) (l : Option Byte) :
    (s.afterRegRead r).latchReadable l = s.latchReadable l := by simp [State.latchReadable]
theorem State.afterRegRead_setPc (s : State) (n : Nat) (r : Fin 8) :
    (s.setPc n).afterRegRead r = (s.afterRegRead r).setPc n := by
  unfold State.afterRegRead
  simp only [State.regDraws_congr (s := s) (t := s.setPc n) (i := r) rfl rfl]
  split_ifs <;> rfl
theorem State.afterLatch_setPc (s : State) (n : Nat) (l : Option Byte) :
    (s.setPc n).afterLatch l = (s.afterLatch l).setPc n := by
  unfold State.afterLatch
  split_ifs <;> rfl
@[simp] theorem State.setPc_latchVal (s : State) (n : Nat) (l : Option Byte) : (s.setPc n).latchVal l = s.latchVal l :=
  rfl

/-! ### Register reads -/

theorem readReg_ok {i : Fin 8} {s t : State} {v : Byte} (h : readReg i s = .ok (v, t)) :
    s.regReadable i ∧ v = s.regVal i ∧ t = s.afterRegRead i := by
  unfold readReg at h
  split_ifs at h with hr
  cases h
  exact ⟨hr, rfl, rfl⟩

theorem readReg_of_readable {i : Fin 8} {s : State} (h : s.regReadable i) :
    readReg i s = .ok (s.regVal i, s.afterRegRead i) := if_pos h

theorem readReg_error {i : Fin 8} {s : State} {e : ErrKind} (h : readReg i s = .error e) :
    s.written i = false ∧ s.uninit = .fault ∧ e = .uninitialisedRead .register i.val := by
  unfold readReg at h
  split_ifs at h with hr
  cases h
  simpa [State.regReadable] using hr

theorem readReg_of_unreadable {i : Fin 8} {s : State} (h : s.written i = false) (hu : s.uninit = .fault) :
    readReg i s = .error (.uninitialisedRead .register i.val) := by
  simp [readReg, State.regReadable, h, hu]

theorem State.regVal_of_written {s : State} {i : Fin 8} (h : s.written i = true) : s.regVal i = s.reg i := by
  simp [State.regVal, State.regDraws, h]

theorem State.afterRegRead_of_written {s : State} {i : Fin 8} (h : s.written i = true) : s.afterRegRead i = s := by
  simp [State.afterRegRead, State.regDraws, h]

/-! ### Memory reads and writes -/

theorem useLatch_ok {l : Option Byte} {a : Nat} {s t : State} {v : Byte} (h : useLatch l a s = .ok (v, t)) :
    s.latchReadable l ∧ v = s.latchVal l ∧ t = s.afterLatch l := by
  unfold useLatch at h
  split_ifs at h with hr
  cases h
  exact ⟨hr, rfl, rfl⟩

theorem useLatch_some (v : Byte) (a : Nat) (s : State) : useLatch (some v) a s = .ok (v, s) := by
  simp [useLatch, State.latchReadable, State.latchVal, State.afterLatch]

theorem useLatch_of_readable {l : Option Byte} {a : Nat} {s : State} (h : s.latchReadable l) :
    useLatch l a s = .ok (s.latchVal l, s.afterLatch l) := if_pos h

theorem useLatch_of_unreadable {a : Nat} {s : State} (hu : s.uninit ≠ .draw) :
    useLatch none a s = .error (.uninitialisedRead .memory a) := by
  simp [useLatch, State.latchReadable, hu]

theorem useLatch_error {l : Option Byte} {a : Nat} {s : State} {e : ErrKind} (h : useLatch l a s = .error e) :
    l = none ∧ s.uninit ≠ .draw ∧ e = .uninitialisedRead .memory a := by
  unfold useLatch at h
  split_ifs at h with hr
  cases h
  simpa [State.latchReadable] using hr

theorem memRead_of_byte (a : Byte) (s : State) : memRead a.toNat s = useLatch (s.cell a.toNat) a.toNat s := by
  have := a.isLt
  simp only [memRead, Config.memSize, ge_iff_le, if_neg (show ¬ 256 ≤ a.toNat by omega)]

theorem memRead_ok {a : Nat} {s t : State} {v : Byte} (h : memRead a s = .ok (v, t)) :
    a < Config.memSize ∧ s.latchReadable (s.cell a) ∧ v = s.latchVal (s.cell a) ∧ t = s.afterLatch (s.cell a) := by
  unfold memRead at h
  split_ifs at h with ha
  exact ⟨by omega, useLatch_ok h⟩

theorem memWrite_of_byte (a : Byte) (v : Nat) (s : State) :
    memWrite a.toNat v s = .ok (s.setCell a.toNat (trunc8 v)) := by
  have := a.isLt
  simp only [memWrite, Config.memSize, ge_iff_le, if_neg (show ¬ 256 ≤ a.toNat by omega)]

@[simp] theorem trunc8_toNat (v : Byte) : trunc8 v.toNat = v := by
  simp [trunc8]

/-! ### Stack pointer -/

theorem decSp_ok {s t : State} {sp : Byte} (h : decSp s = .ok (sp, t)) :
    s.regReadable spIdx ∧ sp = spBelow (s.regVal spIdx) ∧
      t = (s.afterRegRead spIdx).setReg spIdx (spBelow (s.regVal spIdx)) := by
  unfold decSp at h
  by_cases hr : s.regReadable spIdx
  · rw [readReg_of_readable hr] at h
    cases h
    exact ⟨hr, rfl, rfl⟩
  · simp [readReg, if_neg hr, bind, Except.bind] at h

theorem decSp_of_written {s : State} (h : s.written spIdx = true) :
    decSp s = .ok (spBelow (s.reg spIdx), s.setReg spIdx (spBelow (s.reg spIdx))) := by
  have hr := State.regReadable_of_written h
  simp [decSp, readReg_of_readable hr, State.regVal_of_written h, State.afterRegRead_of_written h, bind, Except.bind,
    pure, Except.pure]

theorem incSp_ok {s t : State} (h : incSp s = .ok t) :
    s.regReadable spIdx ∧ t = (s.afterRegRead spIdx).setReg spIdx (spAbove (s.regVal spIdx)) := by
  unfold incSp at h
  by_cases hr : s.regReadable spIdx
  · rw [readReg_of_readable hr] at h
    cases h
    exact ⟨hr, rfl⟩
  · simp [readReg, if_neg hr, bind, Except.bind] at h

theorem incSp_of_written {s : State} (h : s.written spIdx = true) :
    incSp s = .ok (s.setReg spIdx (spAbove (s.reg spIdx))) := by
  have hr := State.regReadable_of_written h
  simp [incSp, readReg_of_readable hr, State.regVal_of_written h, State.afterRegRead_of_written h, bind, Except.bind,
    pure, Except.pure]

/-! ### Lengths (30_encoding.md R62) -/

section
variable (a b : Byte)

@[simp] theorem length_ldi : (Instr.ldi a b).length = 3 := by simp [Instr.length, Instr.opcode, operandCount]
@[simp] theorem length_prn : (Instr.prn a).length = 2 := by simp [Instr.length, Instr.opcode, operandCount]
@[simp] theorem length_hlt : Instr.hlt.length = 1 := by simp [Instr.length, Instr.opcode, operandCount]
@[simp] theorem length_mul : (Instr.mul a b).length = 3 := by simp [Instr.length, Instr.opcode, operandCount]
@[simp] theorem length_add : (Instr.add a b).length = 3 := by simp [Instr.length, Instr.opcode, operandCount]
@[simp] theorem length_push : (Instr.push a).length = 2 := by simp [Instr.length, Instr.opcode, operandCount]
@[simp] theorem length_pop : (Instr.pop a).length = 2 := by simp [Instr.length, Instr.opcode, operandCount]
@[simp] theorem length_call : (Instr.call a).length = 2 := by simp [Instr.length, Instr.opcode, operandCount]
@[simp] theorem length_ret : Instr.ret.length = 1 := by simp [Instr.length, Instr.opcode, operandCount]

end

/-! ### One instruction -/

/-- An instruction either completes with what its body makes of the state with `pc` advanced, or makes the error stop from the
state it began in. It never faults and is never refused. -/
theorem execute_cases (i : Instr) (s : State) (body : State → Except ErrKind State) :
    (∃ t, body (s.setPc (s.pc + i.length)) = .ok t ∧ execute i s body = .next t) ∨
    (∃ e, body (s.setPc (s.pc + i.length)) = .error e ∧ execute i s body = .next (s.raise (some i.opcode) e)) := by
  unfold execute
  cases h : body (s.setPc (s.pc + i.length)) with
  | ok t => exact .inl ⟨t, rfl, rfl⟩
  | error e => exact .inr ⟨e, rfl, rfl⟩

theorem execute_next {i : Instr} {s t : State} {body : State → Except ErrKind State} (h : execute i s body = .next t) :
    body (s.setPc (s.pc + i.length)) = .ok t ∨
    ∃ e, body (s.setPc (s.pc + i.length)) = .error e ∧ t = s.raise (some i.opcode) e := by
  rcases execute_cases i s body with ⟨u, hb, hu⟩ | ⟨e, he, hu⟩ <;> rw [hu] at h <;> cases h
  · exact .inl hb
  · exact .inr ⟨e, he, rfl⟩

theorem execute_ok {i : Instr} {s t : State} {body : State → Except ErrKind State}
    (h : body (s.setPc (s.pc + i.length)) = .ok t) : execute i s body = .next t := by
  simp [execute, h]

theorem execute_error {i : Instr} {s : State} {e : ErrKind} {body : State → Except ErrKind State}
    (h : body (s.setPc (s.pc + i.length)) = .error e) : execute i s body = .next (s.raise (some i.opcode) e) := by
  simp [execute, h]

/-- The first computation of a body that answers did answer. -/
theorem bind_ok {α β : Type} {x : Except ErrKind α} {f : α → Except ErrKind β} {b : β} (h : x >>= f = .ok b) :
    ∃ a, x = .ok a ∧ f a = .ok b := by
  cases x with
  | ok a => exact ⟨a, rfl, h⟩
  | error e => cases h

/-- A body that fails fails in its first computation or after it. -/
theorem bind_error {α β : Type} {x : Except ErrKind α} {f : α → Except ErrKind β} {e : ErrKind}
    (h : x >>= f = .error e) : x = .error e ∨ ∃ a, x = .ok a ∧ f a = .error e := by
  cases x with
  | ok a => exact .inr ⟨a, rfl, h⟩
  | error e' => exact .inl (by cases h; rfl)

end Sys2Proof.Machine
end

