-- ==== Sys2Proof/Laws/Exec.lean ====
section
/-! SUPPORT. One inversion lemma per meaning: everything the instruction can answer. -/

namespace Sys2Proof.Machine

/-- The two ways an instruction's meaning answers: its own effect `own`, or the error stop with an error the core does raise. -/
def EffectOrStop (i : Instr) (s t : State) (own : Prop) : Prop :=
  own ∨ ∃ e : ErrKind, e.reserved = false ∧ t = s.raise (some i.opcode) e

theorem regOperand_error_kind {a : Byte} {e : ErrKind} (h : regOperand a = .error e) : e.reserved = false := by
  unfold regOperand at h
  split_ifs at h
  cases h
  rfl

theorem readReg_error_kind {i : Fin 8} {s : State} {e : ErrKind} (h : readReg i s = .error e) : e.reserved = false := by
  rw [(readReg_error h).2.2]
  rfl

theorem memRead_error_kind {a : Byte} {s : State} {e : ErrKind} (h : memRead a.toNat s = .error e) :
    e.reserved = false := by
  rw [memRead_of_byte] at h
  rw [(useLatch_error h).2.2]
  rfl

theorem decSp_error_kind {s : State} {e : ErrKind} (h : decSp s = .error e) : e.reserved = false := by
  rcases bind_error h with h | ⟨⟨v, u⟩, _, h⟩
  · exact readReg_error_kind h
  · cases h

theorem incSp_error_kind {s : State} {e : ErrKind} (h : incSp s = .error e) : e.reserved = false := by
  rcases bind_error h with h | ⟨⟨v, u⟩, _, h⟩
  · exact readReg_error_kind h
  · cases h

theorem execLdi_cases {a b : Byte} {s t : State} (h : execLdi a b s = .next t) :
    EffectOrStop (.ldi a b) s t (∃ r, regOperand a = .ok r ∧ t = (s.setPc (s.pc + 3)).setReg r b) := by
  rcases execute_next h with hb | ⟨e, hb, he⟩ <;> simp only [length_ldi] at hb
  · obtain ⟨r, hr, hb⟩ := bind_ok hb
    cases hb
    exact .inl ⟨r, hr, rfl⟩
  · rcases bind_error hb with hb | ⟨r, _, hb⟩
    · exact .inr ⟨e, regOperand_error_kind hb, he⟩
    · cases hb

theorem aluRegs_ok {op : AluOp} {a b : Byte} {s t : State} (h : aluRegs op a b s = .ok t) :
    ∃ ra rb, regOperand a = .ok ra ∧ regOperand b = .ok rb ∧ s.regReadable ra ∧ (s.afterRegRead ra).regReadable rb ∧
      t = ((s.afterRegRead ra).afterRegRead rb).setReg ra (alu op (s.regVal ra) ((s.afterRegRead ra).regVal rb)) := by
  obtain ⟨ra, ha, h⟩ := bind_ok h
  obtain ⟨rb, hb, h⟩ := bind_ok h
  obtain ⟨⟨va, s1⟩, h1, h⟩ := bind_ok h
  obtain ⟨⟨vb, s2⟩, h2, h⟩ := bind_ok h
  obtain ⟨r1, rfl, rfl⟩ := readReg_ok h1
  obtain ⟨r2, rfl, rfl⟩ := readReg_ok h2
  cases h
  exact ⟨ra, rb, ha, hb, r1, r2, rfl⟩

theorem aluRegs_error_kind {op : AluOp} {a b : Byte} {s : State} {e : ErrKind} (h : aluRegs op a b s = .error e) :
    e.reserved = false := by
  rcases bind_error h with h | ⟨ra, _, h⟩
  · exact regOperand_error_kind h
  rcases bind_error h with h | ⟨rb, _, h⟩
  · exact regOperand_error_kind h
  rcases bind_error h with h | ⟨⟨va, s1⟩, _, h⟩
  · exact readReg_error_kind h
  rcases bind_error h with h | ⟨⟨vb, s2⟩, _, h⟩
  · exact readReg_error_kind h
  · cases h

theorem execAdd_cases {a b : Byte} {s t : State} (h : execAdd a b s = .next t) :
    EffectOrStop (.add a b) s t (aluRegs .add a b (s.setPc (s.pc + 3)) = .ok t) := by
  rcases execute_next h with hb | ⟨e, hb, he⟩ <;> simp only [length_add] at hb
  · exact .inl hb
  · exact .inr ⟨e, aluRegs_error_kind hb, he⟩

theorem execMul_cases {a b : Byte} {s t : State} (h : execMul a b s = .next t) :
    EffectOrStop (.mul a b) s t (aluRegs .mul a b (s.setPc (s.pc + 3)) = .ok t) := by
  rcases execute_next h with hb | ⟨e, hb, he⟩ <;> simp only [length_mul] at hb
  · exact .inl hb
  · exact .inr ⟨e, aluRegs_error_kind hb, he⟩

/-- The state in which PUSH and CALL have decremented `sp`, from `s` with `pc` advanced. -/
def State.spLowered (s : State) : State :=
  (s.afterRegRead spIdx).setReg spIdx (spBelow (s.regVal spIdx))

theorem execPush_cases {a : Byte} {s t : State} (h : execPush a s = .next t) :
    EffectOrStop (.push a) s t (∃ r, regOperand a = .ok r ∧ (s.setPc (s.pc + 2)).regReadable spIdx ∧
      (s.setPc (s.pc + 2)).spLowered.regReadable r ∧
      t = ((s.setPc (s.pc + 2)).spLowered.afterRegRead r).setCell (spBelow (s.regVal spIdx)).toNat
        ((s.setPc (s.pc + 2)).spLowered.regVal r)) := by
  rcases execute_next h with hb | ⟨e, hb, he⟩ <;> simp only [length_push] at hb
  · obtain ⟨r, hr, hb⟩ := bind_ok hb
    obtain ⟨⟨sp, s1⟩, h1, hb⟩ := bind_ok hb
    obtain ⟨⟨v, s2⟩, h2, hb⟩ := bind_ok hb
    obtain ⟨r1, rfl, rfl⟩ := decSp_ok h1
    obtain ⟨r2, rfl, rfl⟩ := readReg_ok h2
    refine .inl ⟨r, hr, r1, r2, ?_⟩
    simp only [memWrite_of_byte, trunc8_toNat] at hb
    cases hb
    simp [State.spLowered]
  · rcases bind_error hb with hb | ⟨r, _, hb⟩
    · exact .inr ⟨e, regOperand_error_kind hb, he⟩
    rcases bind_error hb with hb | ⟨⟨sp, s1⟩, _, hb⟩
    · exact .inr ⟨e, decSp_error_kind hb, he⟩
    rcases bind_error hb with hb | ⟨⟨v, s2⟩, _, hb⟩
    · exact .inr ⟨e, readReg_error_kind hb, he⟩
    · simp [memWrite_of_byte] at hb

theorem execPop_cases {a : Byte} {s t : State} (h : execPop a s = .next t) :
    EffectOrStop (.pop a) s t (∃ r s1 s2, regOperand a = .ok r ∧
      readReg spIdx (s.setPc (s.pc + 2)) = .ok (s.regVal spIdx, s1) ∧
      s1.latchReadable (s.cell (s.regVal spIdx).toNat) ∧
      s2 = (s1.afterLatch (s.cell (s.regVal spIdx).toNat)).setReg r (s1.latchVal (s.cell (s.regVal spIdx).toNat)) ∧
      incSp s2 = .ok t) := by
  rcases execute_next h with hb | ⟨e, hb, he⟩ <;> simp only [length_pop] at hb
  · obtain ⟨r, hr, hb⟩ := bind_ok hb
    obtain ⟨⟨sp, s1⟩, h1, hb⟩ := bind_ok hb
    obtain ⟨⟨v, s2⟩, h2, hb⟩ := bind_ok hb
    have h1' := h1
    obtain ⟨r1, rfl, rfl⟩ := readReg_ok h1
    obtain ⟨-, r2, rfl, rfl⟩ := memRead_ok h2
    simp only [State.afterRegRead_cell, State.setPc_cell, State.setPc_regVal] at r2
    exact .inl ⟨r, _, _, hr, h1', r2, rfl, by simpa only [State.afterRegRead_cell, State.setPc_cell, State.setPc_regVal] using hb⟩
  · rcases bind_error hb with hb | ⟨r, _, hb⟩
    · exact .inr ⟨e, regOperand_error_kind hb, he⟩
    rcases bind_error hb with hb | ⟨⟨sp, s1⟩, _, hb⟩
    · exact .inr ⟨e, readReg_error_kind hb, he⟩
    rcases bind_error hb with hb | ⟨⟨v, s2⟩, _, hb⟩
    · exact .inr ⟨e, memRead_error_kind hb, he⟩
    · exact .inr ⟨e, incSp_error_kind hb, he⟩

theorem execCall_cases {a : Byte} {s t : State} (h : execCall a s = .next t) :
    EffectOrStop (.call a) s t (∃ r s1, regOperand a = .ok r ∧ (s.setPc (s.pc + 2)).regReadable spIdx ∧
      s1 = (s.setPc (s.pc + 2)).spLowered.setCell (spBelow (s.regVal spIdx)).toNat (trunc8 (s.pc + 2)) ∧
      s1.regReadable r ∧ t = (s1.afterRegRead r).setPc (s1.regVal r).toNat) := by
  rcases execute_next h with hb | ⟨e, hb, he⟩ <;> simp only [length_call] at hb
  · obtain ⟨r, hr, hb⟩ := bind_ok hb
    obtain ⟨⟨sp, s1⟩, h1, hb⟩ := bind_ok hb
    obtain ⟨s2, h2, hb⟩ := bind_ok hb
    obtain ⟨⟨v, s3⟩, h3, hb⟩ := bind_ok hb
    obtain ⟨r1, rfl, rfl⟩ := decSp_ok h1
    simp only [memWrite_of_byte] at h2
    cases h2
    obtain ⟨r3, rfl, rfl⟩ := readReg_ok h3
    cases hb
    refine .inl ⟨r, _, hr, r1, ?_, r3, rfl⟩
    simp [State.spLowered]
  · rcases bind_error hb with hb | ⟨r, _, hb⟩
    · exact .inr ⟨e, regOperand_error_kind hb, he⟩
    rcases bind_error hb with hb | ⟨⟨sp, s1⟩, _, hb⟩
    · exact .inr ⟨e, decSp_error_kind hb, he⟩
    rcases bind_error hb with hb | ⟨s2, _, hb⟩
    · simp [memWrite_of_byte] at hb
    rcases bind_error hb with hb | ⟨⟨v, s3⟩, _, hb⟩
    · exact .inr ⟨e, readReg_error_kind hb, he⟩
    · cases hb

theorem execRet_cases {s t : State} (h : execRet s = .next t) :
    EffectOrStop .ret s t (∃ s1, readReg spIdx (s.setPc (s.pc + 1)) = .ok (s.regVal spIdx, s1) ∧
      s1.latchReadable (s.cell (s.regVal spIdx).toNat) ∧
      incSp ((s1.afterLatch (s.cell (s.regVal spIdx).toNat)).setPc
        (s1.latchVal (s.cell (s.regVal spIdx).toNat)).toNat) = .ok t) := by
  rcases execute_next h with hb | ⟨e, hb, he⟩ <;> simp only [length_ret] at hb
  · obtain ⟨⟨sp, s1⟩, h1, hb⟩ := bind_ok hb
    obtain ⟨⟨v, s2⟩, h2, hb⟩ := bind_ok hb
    have h1' := h1
    obtain ⟨r1, rfl, rfl⟩ := readReg_ok h1
    obtain ⟨-, r2, rfl, rfl⟩ := memRead_ok h2
    simp only [State.afterRegRead_cell, State.setPc_cell, State.setPc_regVal] at r2
    exact .inl ⟨_, h1', r2, by simpa only [State.afterRegRead_cell, State.setPc_cell, State.setPc_regVal] using hb⟩
  · rcases bind_error hb with hb | ⟨⟨sp, s1⟩, _, hb⟩
    · exact .inr ⟨e, readReg_error_kind hb, he⟩
    rcases bind_error hb with hb | ⟨⟨v, s2⟩, _, hb⟩
    · exact .inr ⟨e, memRead_error_kind hb, he⟩
    · exact .inr ⟨e, incSp_error_kind hb, he⟩

theorem execPrn_cases {a : Byte} {s t : State} (h : execPrn a s = .next t) :
    EffectOrStop (.prn a) s t (∃ r, regOperand a = .ok r ∧ (s.setPc (s.pc + 2)).regReadable r ∧
      t = ((s.setPc (s.pc + 2)).afterRegRead r).emit ((s.setPc (s.pc + 2)).regVal r)) := by
  rcases execute_next h with hb | ⟨e, hb, he⟩ <;> simp only [length_prn] at hb
  · obtain ⟨r, hr, hb⟩ := bind_ok hb
    obtain ⟨⟨v, s1⟩, h1, hb⟩ := bind_ok hb
    obtain ⟨r1, rfl, rfl⟩ := readReg_ok h1
    cases hb
    exact .inl ⟨r, hr, r1, rfl⟩
  · rcases bind_error hb with hb | ⟨r, _, hb⟩
    · exact .inr ⟨e, regOperand_error_kind hb, he⟩
    rcases bind_error hb with hb | ⟨⟨v, s1⟩, _, hb⟩
    · exact .inr ⟨e, readReg_error_kind hb, he⟩
    · cases hb

theorem execHlt_next (s : State) : execHlt s = .next (s.setPc (s.pc + 1)).halt := rfl

end Sys2Proof.Machine
end

