-- ==== Sys2Proof/Laws/Fetch.lean ====
section
/-! SUPPORT. Decoding and fetching: what the dispatcher knows, and everything a fetch can answer. -/

namespace Sys2Proof

/-- The dispatcher knows exactly the opcode bytes of instructions, and makes the instruction whose opcode it is given. -/
theorem opcodeMap_some {ir : Byte} {make : Byte → Byte → Instr} (h : opcodeMap ir = some make) (a b : Byte) :
    (make a b).opcode = ir := by
  unfold opcodeMap at h
  split_ifs at h with h1 h2 h3 h4 h5 h6 h7 h8 h9 <;> cases h <;> simp_all [Instr.opcode]

theorem opcodeMap_opcode (i : Instr) : ∃ make, opcodeMap i.opcode = some make := by
  cases i <;> exact ⟨_, rfl⟩

theorem opcodeMap_none_iff (ir : Byte) : opcodeMap ir = none ↔ ir ∉ Machine.nineOpcodes := by
  unfold opcodeMap Machine.nineOpcodes
  split_ifs <;> simp_all

namespace Machine

/-- A fetched operand moves the draw counter alone. -/
theorem operandByte_ok {k n addr : Nat} {l : Option Byte} {s t : State} {v : Byte}
    (h : operandByte k n l addr s = .ok (v, t)) : t = s ∨ t = s.afterLatch l := by
  unfold operandByte at h
  split_ifs at h
  · exact .inr (useLatch_ok h).2.2
  · cases h
    exact .inl rfl

/-- A fetch that answers moves the draw counter alone, and only upward. -/
theorem fetch_ok {s t : State} {i : Instr} (h : fetch s = .ok (i, t)) :
    s.pc ≤ 253 ∧ ∃ d, s.draws ≤ d ∧ t = { s with draws := d } := by
  have key : ∀ (u v : State) (l : Option Byte), (v = u ∨ v = u.afterLatch l) →
      (∃ d, s.draws ≤ d ∧ u = { s with draws := d }) → ∃ d, s.draws ≤ d ∧ v = { s with draws := d } := by
    rintro u v l hv ⟨d, hd, rfl⟩
    rcases hv with rfl | rfl
    · exact ⟨d, hd, rfl⟩
    · rcases State.afterLatch_cases { s with draws := d } l with h | ⟨-, h⟩ <;> rw [h]
      · exact ⟨d, hd, rfl⟩
      · exact ⟨d + 1, by omega, rfl⟩
  unfold fetch fetchBounds at h
  simp only [Config.memSize, ge_iff_le] at h
  split_ifs at h with h1 h2
  · cases h
  · cases h
  refine ⟨by omega, ?_⟩
  simp only [withIr, bind, Except.bind] at h
  cases hr : memRead s.pc s with
  | error e => rw [hr] at h; cases h
  | ok p =>
    obtain ⟨ir, s1⟩ := p
    obtain ⟨-, -, -, hs1⟩ := memRead_ok hr
    rw [hr] at h
    cases hm : opcodeMap ir with
    | none => simp [hm] at h
    | some make =>
      simp only [hm] at h
      cases hf : fetchOperands s.pc (operandCount ir) (s.cell (s.pc + 1)) (s.cell (s.pc + 2)) make s1 with
      | error e => rw [hf] at h; cases h
      | ok q =>
        rw [hf] at h
        cases h
        obtain ⟨⟨a, s2⟩, ha, hf⟩ := bind_ok hf
        obtain ⟨⟨b, s3⟩, hb, hf⟩ := bind_ok hf
        cases hf
        exact key _ _ _ (operandByte_ok hb) (key _ _ _ (operandByte_ok ha)
          (key _ _ _ (.inr hs1) ⟨s.draws, le_refl _, rfl⟩))

/-- A running core's step is a completed fetch and then `exec`, or the error stop of the fetch. -/
theorem step_running {s : State} (h : s.run = .running) :
    (∃ i s', fetch s = .ok (i, s') ∧ step s = exec i s') ∨
    (∃ ir e, fetch s = .error (ir, e) ∧ step s = .next (s.raise ir e)) := by
  unfold step
  rw [h]
  cases hf : fetch s with
  | ok p => exact .inl ⟨p.1, p.2, rfl, rfl⟩
  | error p => exact .inr ⟨p.1, p.2, rfl, rfl⟩

/-- Only a running core has a next state. -/
theorem step_next_running {s t : State} (h : step s = .next t) : s.run = .running := by
  unfold step at h
  cases hr : s.run <;> simp [hr] at h ⊢

end Machine
end Sys2Proof
end

