-- ==== Sys2Proof/Laws/PerInstr.lean ====
section
/-! SUPPORT. What holds of every instruction as syntax, one lemma per constructor. -/

namespace Sys2Proof.Laws.Encoding

/-- The encoding starts with the opcode, has as many bytes after it as the opcode's bits 7:6 say (spec 30_encoding.md R61,
R62, R69), and the dispatcher makes the instruction from its opcode and its own operand bytes (R65). -/
def Statement (i : Instr) : Prop :=
  encode i = i.opcode :: i.operands ∧ i.operands.length = operandCount i.opcode ∧
    (opcodeMap i.opcode).map (fun make => make (i.operands.getD 0 0) (i.operands.getD 1 0)) = some i

theorem ldi (a b : Byte) : Statement (.ldi a b) := ⟨rfl, by simp [Instr.operands, operandCount, Instr.opcode], rfl⟩
theorem prn (a : Byte) : Statement (.prn a) := ⟨rfl, by simp [Instr.operands, operandCount, Instr.opcode], rfl⟩
theorem hlt : Statement .hlt := ⟨rfl, by simp [Instr.operands, operandCount, Instr.opcode], rfl⟩
theorem mul (a b : Byte) : Statement (.mul a b) := ⟨rfl, by simp [Instr.operands, operandCount, Instr.opcode], rfl⟩
theorem add (a b : Byte) : Statement (.add a b) := ⟨rfl, by simp [Instr.operands, operandCount, Instr.opcode], rfl⟩
theorem push (a : Byte) : Statement (.push a) := ⟨rfl, by simp [Instr.operands, operandCount, Instr.opcode], rfl⟩
theorem pop (a : Byte) : Statement (.pop a) := ⟨rfl, by simp [Instr.operands, operandCount, Instr.opcode], rfl⟩
theorem call (a : Byte) : Statement (.call a) := ⟨rfl, by simp [Instr.operands, operandCount, Instr.opcode], rfl⟩
theorem ret : Statement .ret := ⟨rfl, by simp [Instr.operands, operandCount, Instr.opcode], rfl⟩

end Sys2Proof.Laws.Encoding
end

