-- ==== Sys2Proof/Tests/Slice0.lean ====
section
/-! SUPPORT. The model's own tests: words written out from spec 30_encoding.md R65, vectors of spec 95_test_vectors.md (named
in each docstring), the ill-formed terms, and for every statement with hypotheses states that meet them. -/

namespace Sys2Proof.Tests

open Sys2Proof Sys2Proof.Machine

/-- A small state: a policy, a `pc`, written registers and written cells over the reset state. -/
def mk (p : UninitPolicy) (pc : Nat) (rs : List (Fin 8 × Byte)) (ms : List (Nat × Byte)) : State :=
  { rs.foldl (fun s q => s.setReg q.1 q.2) (State.resetWith p) with
    pc := pc, mem := ms.foldl (fun m q => Memory.store m q.1 q.2) [] }

/-- The next state of an outcome. -/
def nextOf : Host.Outcome State Fault Refusal → Option State
  | .next s => some s
  | _ => none

/-- One step, seen through `f`. -/
def after {α : Type} (s : State) (f : State → α) : Option α := (nextOf (step s)).map f

/-- The kind and opcode byte of the error record. -/
def errOf (s : State) : Option (ErrKind × Option Byte) := s.err.map fun e => (e.kind, e.ir)

/-! ### Well-formedness refuses -/

theorem test_wf_ldi : ¬ (Instr.ldi 8 0).WellFormed ∧ (Instr.ldi 7 255).WellFormed := by decide
theorem test_wf_prn : ¬ (Instr.prn 8).WellFormed := by decide
theorem test_wf_mul_a : ¬ (Instr.mul 8 0).WellFormed := by decide
theorem test_wf_mul_b : ¬ (Instr.mul 0 8).WellFormed := by decide
theorem test_wf_add_a : ¬ (Instr.add 255 0).WellFormed := by decide
theorem test_wf_add_b : ¬ (Instr.add 7 8).WellFormed := by decide
theorem test_wf_push : ¬ (Instr.push 8).WellFormed := by decide
theorem test_wf_pop : ¬ (Instr.pop 8).WellFormed := by decide
theorem test_wf_call : ¬ (Instr.call 8).WellFormed := by decide
theorem test_wf_none : Instr.hlt.WellFormed ∧ Instr.ret.WellFormed := by decide

/-! ### Decoding (30_encoding.md R65; operands 0b00000110 and 0b11111111) -/

theorem test_decode_ldi : decode [0b10000010, 0b00000110, 0b11111111] = .ok (.ldi 6 255, []) := rfl
theorem test_decode_prn : decode [0b01000111, 0b00000110] = .ok (.prn 6, []) := rfl
theorem test_decode_hlt : decode [0b00000001] = .ok (.hlt, []) := rfl
theorem test_decode_mul : decode [0b10100010, 0b00000110, 0b00000101] = .ok (.mul 6 5, []) := rfl
theorem test_decode_add : decode [0b10100000, 0b00000110, 0b00000101] = .ok (.add 6 5, []) := rfl
theorem test_decode_push : decode [0b01000101, 0b00000110] = .ok (.push 6, []) := rfl
theorem test_decode_pop : decode [0b01000110, 0b00000110] = .ok (.pop 6, []) := rfl
theorem test_decode_call : decode [0b01010000, 0b00000110] = .ok (.call 6, []) := rfl
theorem test_decode_ret : decode [0b00010001] = .ok (.ret, []) := rfl
/-- The example bytes `82 00 08` of 41_data_movement.md R100, then left-over bytes. -/
theorem test_decode_rest : decode [0x82, 0x00, 0x08, 0x01] = .ok (.ldi 0 8, [0x01]) := rfl
theorem test_decode_zero_is_illegal : decode [0x00] = .error (.unrecognizedOpcode 0x00) := rfl
theorem test_decode_c0_is_illegal : decode [0xC0, 1, 2, 3] = .error (.unrecognizedOpcode 0xC0) := rfl
theorem test_decode_truncated : decode [0xA0, 0x01] = .error (.truncated 0xA0) := rfl
theorem test_decode_empty : decode [] = .error .empty := rfl
/-- The table's numbering: the opcode is bits 7:0, `a` bits 15:8, `b` bits 23:16; bits above `nbits` are 0. -/
theorem test_table_word : decodeTableWord 24 0x0903A0 = some (.add 3 9) ∧ decodeTableWord 8 0x0903A0 = some (.add 0 0) ∧
    decodeTableWord 8 0x00 = none := by decide

/-! ### One step each (95_test_vectors.md) -/

/-- V-LDI-2. -/
theorem test_ldi_no_extension :
    after (mk .fault 0x10 [] [(0x10, 0x82), (0x11, 3), (0x12, 0xFF)]) (fun t => (t.reg 3, t.written 3, t.pc)) =
      some (0xFF, true, 0x13) := by decide
/-- V-LDI-4. -/
theorem test_ldi_register_8 :
    after (mk .fault 0x10 [] [(0x10, 0x82), (0x11, 8), (0x12, 1)]) (fun t => (errOf t, t.pc, t.run)) =
      some (some (.outOfBoundsAccess .register 8, some 0x82), 0x10, .faulted) := by decide
/-- V-ADD-1. -/
theorem test_add_wraps :
    after (mk .fault 0x10 [(0, 200), (1, 100)] [(0x10, 0xA0), (0x11, 0), (0x12, 1)]) (fun t => (t.reg 0, t.reg 1, t.pc)) =
      some (44, 100, 0x13) := by decide
/-- V-ADD-8. -/
theorem test_add_checks_a_first :
    after (mk .fault 0x10 [] [(0x10, 0xA0), (0x11, 9), (0x12, 8)]) errOf =
      some (some (.outOfBoundsAccess .register 9, some 0xA0)) := by decide
/-- V-MUL-3. -/
theorem test_mul_truncates :
    after (mk .fault 0x10 [(0, 0xFF), (1, 0xFF)] [(0x10, 0xA2), (0x11, 0), (0x12, 1)]) (fun t => (t.reg 0, t.reg 1)) =
      some (0x01, 0xFF) := by decide
/-- V-MUL-8. -/
theorem test_mul_unwritten :
    after (mk .fault 0x10 [(1, 3)] [(0x10, 0xA2), (0x11, 0), (0x12, 1)]) errOf =
      some (some (.uninitialisedRead .register 0, some 0xA2)) := by decide
/-- V-PUSH-2. -/
theorem test_push_r7 :
    after (mk .fault 0x10 [] [(0x10, 0x45), (0x11, 7)]) (fun t => (t.reg 7, t.cell 0xF3, t.pc)) =
      some (0xF3, some 0xF3, 0x12) := by decide
/-- V-PUSH-3. -/
theorem test_push_wraps :
    after (mk .fault 0x10 [(0, 0x2A), (7, 0)] [(0x10, 0x45), (0x11, 0)]) (fun t => (t.reg 7, t.cell 0xFF)) =
      some (0xFF, some 0x2A) := by decide
/-- V-POP-2. -/
theorem test_pop_r7 :
    after (mk .fault 0x10 [(7, 0xF3)] [(0x10, 0x46), (0x11, 7), (0xF3, 0x10)]) (fun t => (t.reg 7, t.cell 0xF3)) =
      some (0x11, some 0x10) := by decide
/-- V-POP-3. -/
theorem test_pop_wraps :
    after (mk .fault 0x10 [(7, 0xFF)] [(0x10, 0x46), (0x11, 1), (0xFF, 0x77)]) (fun t => (t.reg 1, t.reg 7)) =
      some (0x77, 0x00) := by decide
/-- V-CALL-2. -/
theorem test_call_r7 :
    after (mk .fault 0x10 [] [(0x10, 0x50), (0x11, 7)]) (fun t => (t.reg 7, t.cell 0xF3, t.pc)) =
      some (0xF3, some 0x12, 0xF3) := by decide
/-- V-CALL-3. -/
theorem test_call_largest_return_address :
    after (mk .fault 0xFD [(1, 0x20)] [(0xFD, 0x50), (0xFE, 1)]) (fun t => (t.cell 0xF3, t.pc)) =
      some (some 0xFF, 0x20) := by decide
/-- V-RET-2. -/
theorem test_ret_wraps :
    after (mk .fault 0x10 [(7, 0xFF)] [(0x10, 0x11), (0xFF, 0x30)]) (fun t => (t.pc, t.reg 7)) =
      some (0x30, 0x00) := by decide
/-- V-RET-3. -/
theorem test_ret_nothing_pushed :
    after (mk .fault 0x10 [] [(0x10, 0x11)]) errOf = some (some (.uninitialisedRead .memory 0xF4, some 0x11)) := by decide
/-- V-PRN-4. -/
theorem test_prn_sp : after (mk .fault 0x10 [] [(0x10, 0x47), (0x11, 7)]) (fun t => (t.out, t.pc)) =
    some ([244], 0x12) := by decide
/-- V-PRN-6. -/
theorem test_prn_unwritten : after (mk .fault 0x10 [] [(0x10, 0x47), (0x11, 2)]) (fun t => (t.out, errOf t)) =
    some ([], some (.uninitialisedRead .register 2, some 0x47)) := by decide
/-- V-HLT-2: unwritten bytes follow. -/
theorem test_hlt_highest : after (mk .fault 0xFD [] [(0xFD, 0x01)]) (fun t => (t.run, t.pc, t.err)) =
    some (.halted, 0xFE, none) := by decide
/-- V-HLT-3. -/
theorem test_hlt_at_254 : after (mk .fault 0xFE [] [(0xFE, 0x01)]) (fun t => (errOf t, t.pc)) =
    some (some (.outOfBoundsAccess .prefetch 0x100, none), 0xFE) := by decide
/-- V-CYC-1. -/
theorem test_fetch_at_256 : after (mk .fault 0x100 [] []) (fun t => (errOf t, t.pc)) =
    some (some (.outOfBoundsAccess .fetch 0x100, none), 0x100) := by decide
/-- V-CYC-2. -/
theorem test_illegal_c0 : after (mk .fault 0x10 [] [(0x10, 0xC0)]) errOf =
    some (some (.unrecognizedOpcode, some 0xC0)) := by decide
/-- V-CYC-5. -/
theorem test_used_operand_unwritten : after (mk .fault 0x10 [] [(0x10, 0x82), (0x11, 0)]) errOf =
    some (some (.uninitialisedRead .memory 0x12, some 0x82)) := by decide
/-- V-CYC-7. -/
theorem test_opcode_unwritten : after (mk .fault 0x10 [] []) errOf =
    some (some (.uninitialisedRead .memory 0x10, none)) := by decide
/-- Under `draw` the instruction of V-PRN-6 runs and emits the free value (95_test_vectors.md, conventions). -/
theorem test_draw_prn : step (mk .draw 0x10 [] [(0x10, 0x47), (0x11, 2)]) =
    .next { mk .draw 0x12 [] [(0x10, 0x47), (0x11, 2)] with out := [Config.drawByte 0], draws := 1 } := rfl

/-! ### The host's side -/

/-- 70_reset_and_hazards.md R181: an image of 12 bytes at 244 fits, at 245 it does not. -/
theorem test_load_bound : (load 244 (List.replicate 12 1) State.reset).isSome = true ∧
    load 245 (List.replicate 12 1) State.reset = none := by decide
/-- The trace of a core at 255 reads no cell out of range (60_exceptions.md R172). -/
theorem test_trace_edge : trace (mk .fault 255 [] [(255, 1)]) =
    { fetchPc := 255, ir := some 1, la := none, lb := none,
      regs := [none, none, none, none, none, none, none, some 0xF4] } := by decide
/-- The first step from reset with nothing loaded: the opcode cell at 0 is unwritten. -/
theorem test_reset_step : after State.reset errOf = some (some (.uninitialisedRead .memory 0, none)) := by decide
/-- A word placed at the fetch address is what the next step runs, from reset. -/
theorem test_withFetchWord : after (State.reset.withFetchWord 24 0x080082) (fun t => (t.reg 0, t.pc)) =
    some (8, 3) := by decide

/-! ### Witnesses: states and operands that meet the statements' hypotheses -/

theorem test_witness_illegal_opcode : let s := mk .fault 253 [] [(253, 0xFF)]
    s.run = .running ∧ s.pc ≤ 253 ∧ s.cell s.pc = some 0xFF ∧ (0xFF : Byte) ∉ nineOpcodes := by decide
theorem test_witness_length_enough : (0xA2 : Byte) ∈ nineOpcodes ∧ (0xA2 : Byte).toNat / 64 ≤ [(1 : Byte), 2].length := by
  decide
theorem test_witness_length_short : (0xA2 : Byte) ∈ nineOpcodes ∧ [(1 : Byte)].length < (0xA2 : Byte).toNat / 64 := by
  decide
/-- `StepRunsTheDecodedInstruction` at its highest address, with the cell after HLT unwritten. -/
theorem test_witness_step_runs : let s := mk .fault 253 [] [(253, 0x01)]
    s.run = .running ∧ s.pc ≤ 253 ∧ (∀ (k : Nat) (v : Byte), [(0x01 : Byte)][k]? = some v → s.cell (s.pc + k) = some v) ∧
      decode [0x01] = .ok (.hlt, []) := by
  refine ⟨rfl, by decide, fun k v h => ?_, rfl⟩
  cases k with
  | zero => exact Option.some.inj h ▸ rfl
  | succ k => simp at h
theorem test_witness_stopped : ({ mk .fault 0 [] [] with run := .halted } : State).run = .halted ∧
    ({ mk .fault 0 [] [] with run := .faulted } : State).run = .faulted := by decide
theorem test_witness_step_next : ∃ t, step (mk .fault 0 [] []) = .next t := ⟨_, rfl⟩
theorem test_witness_fetch_above : let s := mk .fault 256 [] []
    s.run = .running ∧ 255 < s.pc := by decide
/-- A step that takes `pc` above 255: a 3-byte instruction at 253 (95_test_vectors.md P7). -/
theorem test_witness_pc_reaches_256 : let s := mk .fault 253 [] [(253, 0x82), (254, 0), (255, 5)]
    s.pc ≤ 255 ∧ after s (fun t => decide (255 < t.pc)) = some true := by decide
theorem test_witness_call_ret_next : (∃ t, exec (.call 1) (mk .fault 0 [(1, 0xFF)] []) = .next t) ∧
    ∃ t, exec .ret (mk .fault 0 [] [(0xF4, 0xFF)]) = .next t := ⟨⟨_, rfl⟩, ⟨_, rfl⟩⟩
theorem test_witness_prefetch : (mk .fault 254 [] []).run = .running ∧ (mk .fault 254 [] []).pc = 254 ∧
    (mk .fault 255 [] []).run = .running ∧ (mk .fault 255 [] []).pc = 255 := by decide
theorem test_witness_opcode_unwritten : let s := mk .fault 253 [] []
    s.run = .running ∧ s.pc ≤ 253 ∧ s.uninit = .fault ∧ s.cell s.pc = none := by decide
/-- Two memories that agree on a PUSH and its operand and differ in the unused latch. -/
theorem test_witness_unused_latch : let s := mk .fault 0 [] [(0, 0x45), (1, 0)]
    let m := Memory.store s.mem 2 9
    s.cell s.pc = some 0x45 ∧ (∀ k, k ≤ (0x45 : Byte).toNat / 64 → Memory.cell? m (s.pc + k) = s.cell (s.pc + k)) ∧
      Memory.cell? m (s.pc + 2) ≠ s.cell (s.pc + 2) := by decide
theorem test_witness_hlt_opcode : let s := mk .draw 253 [] [(253, 0x01)]
    s.run = .running ∧ s.pc ≤ 253 ∧ s.cell s.pc = some 0x01 := by decide
/-- Written operands: one used and the other latch unwritten, and two used at the highest address. -/
theorem test_witness_used_operands_written : let s := mk .fault 0 [] [(0, 0x47), (1, 9)]
    let u := mk .draw 253 [] [(253, 0xA0), (254, 1), (255, 2)]
    s.run = .running ∧ s.pc ≤ 253 ∧ s.cell s.pc = some 0x47 ∧ (opcodeMap 0x47).isSome = true ∧
      (1 ≤ (0x47 : Byte).toNat / 64 → s.cell (s.pc + 1) = some 9) ∧
      ((0x47 : Byte).toNat / 64 = 2 → s.cell (s.pc + 2) = some 0) ∧
    u.run = .running ∧ u.pc ≤ 253 ∧ u.cell u.pc = some 0xA0 ∧ (1 ≤ (0xA0 : Byte).toNat / 64 → u.cell (u.pc + 1) = some 1) ∧
      ((0xA0 : Byte).toNat / 64 = 2 → u.cell (u.pc + 2) = some 2) := by decide
theorem test_witness_used_operand_a : let s := mk .fault 253 [] [(253, 0x47)]
    s.run = .running ∧ s.pc ≤ 253 ∧ s.cell s.pc = some 0x47 ∧ (opcodeMap 0x47).isSome = true ∧ s.uninit = .fault ∧
      1 ≤ (0x47 : Byte).toNat / 64 ∧ s.cell (s.pc + 1) = none := by decide
theorem test_witness_used_operand_b : let s := mk .fault 253 [] [(253, 0xA0), (254, 0)]
    s.run = .running ∧ s.pc ≤ 253 ∧ s.cell s.pc = some 0xA0 ∧ (opcodeMap 0xA0).isSome = true ∧ s.uninit = .fault ∧
      (0xA0 : Byte).toNat / 64 = 2 ∧ s.cell (s.pc + 1) ≠ none ∧ s.cell (s.pc + 2) = none := by decide
/-- `UnwrittenOpcodeIsDrawn` at its highest address. Which branch holds is the free value's, which nothing can evaluate. -/
theorem test_witness_opcode_drawn : let s := mk .draw 253 [] [(254, 1)]
    s.run = .running ∧ s.pc ≤ 253 ∧ s.uninit = .draw ∧ s.cell s.pc = none := by decide
theorem test_witness_used_operand_draw : let s := mk .draw 253 [] [(253, 0xA0)]
    s.run = .running ∧ s.pc ≤ 253 ∧ s.cell s.pc = some 0xA0 ∧ (opcodeMap 0xA0).isSome = true ∧ s.uninit = .draw := by
  decide
/-- `StepReportsTheFirstErrorInOrder`, with an error to report and with none. -/
theorem test_witness_error_order : let s := mk .fault 0x10 [] [(0x10, 0xA0), (0x11, 9), (0x12, 8)]
    let u := mk .fault 0x10 [] [(0x10, 0x01)]
    s.run = .running ∧ s.uninit = .fault ∧ s.written spIdx = true ∧
      (errorsInOrder s).find? (·.1) = some (true, some 0xA0, .outOfBoundsAccess .register 9) ∧
    u.run = .running ∧ u.uninit = .fault ∧ u.written spIdx = true ∧ (errorsInOrder u).find? (·.1) = none := by decide
/-- The smallest register operand that raises. -/
theorem test_witness_register_8 : 7 < (8 : Byte).toNat := by decide
/-- Registers readable because written, because the policy is `hold`, and because it is `draw`. -/
theorem test_witness_readable : (mk .fault 0 [(0, 1), (6, 2)] []).regReadable 0 = true ∧
    (mk .fault 0 [(0, 1), (6, 2)] []).regReadable 6 = true ∧ (mk .hold 0 [] []).regReadable 0 = true ∧
    (mk .draw 0 [] []).regReadable 6 = true := by decide
theorem test_witness_unwritten_a : let s := mk .fault 0 [(1, 3)] []
    s.uninit = .fault ∧ s.written 0 = false := by decide
theorem test_witness_unwritten_b : let s := mk .fault 0 [(0, 3)] []
    s.uninit = .fault ∧ s.written 0 = true ∧ s.written 6 = false := by decide
/-- PUSH and CALL: `sp` at its lowest, a readable register other than `sp`; and an unwritten one. -/
theorem test_witness_storing : let s := mk .fault 253 [(7, 0), (6, 9)] []
    s.written spIdx = true ∧ s.regReadable 6 = true ∧ (6 : Fin 8) ≠ spIdx ∧ s.uninit = .fault ∧ s.written 5 = false := by
  decide
/-- POP and RET: a readable cell at the highest `sp`, by being written and by the policy `draw`; and an unreadable one. -/
theorem test_witness_popping : let s := mk .fault 0 [(7, 0xFF)] [(0xFF, 1)]
    let d := mk .draw 0 [] []
    let u := mk .fault 0 [] []
    s.written spIdx = true ∧ s.latchReadable (s.cell (s.reg spIdx).toNat) = true ∧ (6 : Fin 8) ≠ spIdx ∧
    d.written spIdx = true ∧ d.latchReadable (d.cell (d.reg spIdx).toNat) = true ∧
    u.written spIdx = true ∧ u.uninit = .fault ∧ u.cell (u.reg spIdx).toNat = none := by decide
/-- A PRN that stops with an error from a running state. -/
theorem test_witness_prn_stops : let s := mk .fault 0 [] []
    s.run = .running ∧ (nextOf (exec (.prn 0) s)).map (·.run) = some .faulted := by decide
theorem test_witness_hlt_next : ∃ t, exec .hlt (mk .fault 0 [] []) = .next t := ⟨_, rfl⟩
/-- The frames: each instruction answers a next state, by its own effect and by the error stop. -/
theorem test_witness_frames_effect : let s := mk .fault 0 [(0, 1)] [(0xF4, 2)]
    (∃ t, exec (.ldi 0 1) s = .next t) ∧ (∃ t, exec (.add 0 0) s = .next t) ∧ (∃ t, exec (.mul 0 0) s = .next t) ∧
    (∃ t, exec (.push 0) s = .next t) ∧ (∃ t, exec (.call 0) s = .next t) ∧ (∃ t, exec (.pop 0) s = .next t) ∧
    (∃ t, exec .ret s = .next t) ∧ (∃ t, exec (.prn 0) s = .next t) ∧ (∃ t, exec .hlt s = .next t) :=
  ⟨⟨_, rfl⟩, ⟨_, rfl⟩, ⟨_, rfl⟩, ⟨_, rfl⟩, ⟨_, rfl⟩, ⟨_, rfl⟩, ⟨_, rfl⟩, ⟨_, rfl⟩, ⟨_, rfl⟩⟩
theorem test_witness_frames_stop : let s := mk .fault 0 [] []
    (∃ t, exec (.ldi 8 1) s = .next t) ∧ (∃ t, exec (.add 0 8) s = .next t) ∧ (∃ t, exec (.push 8) s = .next t) ∧
    (∃ t, exec (.pop 0) s = .next t) ∧ (∃ t, exec .ret s = .next t) ∧ (∃ t, exec (.prn 255) s = .next t) :=
  ⟨⟨_, rfl⟩, ⟨_, rfl⟩, ⟨_, rfl⟩, ⟨_, rfl⟩, ⟨_, rfl⟩, ⟨_, rfl⟩⟩
theorem test_witness_register_read : (mk .fault 0 [(0, 1)] []).written 0 = true ∧
    ((mk .fault 0 [] []).written 0 = false ∧ (mk .fault 0 [] []).uninit = .fault) ∧
    ((mk .draw 0 [] []).written 0 = false ∧ (mk .draw 0 [] []).uninit = .draw) := by decide
/-- The clauses of `MemReadFollowsThePolicy` and `MemWriteStoresOneByte` at the edge of memory. -/
theorem test_witness_memory_edge : (255 < 256) ∧ (mk .fault 0 [] [(255, 7)]).cell 255 = some 7 ∧
    ((mk .fault 0 [] []).cell 255 = none ∧ (mk .fault 0 [] []).uninit = .fault) ∧
    ((mk .draw 0 [] []).cell 255 = none ∧ (mk .draw 0 [] []).uninit = .draw) := by decide
/-- The clauses of `HoldPolicyReads`: a register and a cell, the opcode cell and the operand cells at the highest address, and
the cell at `sp`. -/
theorem test_witness_hold : let s := mk .hold 253 [] []
    let a := mk .hold 253 [] [(253, 0x47)]
    let b := mk .hold 253 [] [(253, 0xA0), (254, 0)]
    s.run = .running ∧ s.uninit = .hold ∧ s.cell 255 = none ∧ s.pc ≤ 253 ∧ s.cell s.pc = none ∧
      s.cell (s.reg spIdx).toNat = none ∧
    a.uninit = .hold ∧ a.cell a.pc = some 0x47 ∧ (0x47 : Byte) ∈ nineOpcodes ∧ 1 ≤ (0x47 : Byte).toNat / 64 ∧
      a.cell (a.pc + 1) = none ∧
    b.uninit = .hold ∧ b.cell b.pc = some 0xA0 ∧ (0xA0 : Byte) ∈ nineOpcodes ∧ (0xA0 : Byte).toNat / 64 = 2 ∧
      b.cell (b.pc + 1) ≠ none ∧ b.cell (b.pc + 2) = none := by decide
/-- `ErrorStopsArePrecise` and `ReservedErrorsAreNeverRaised`: a step that ends faulted with a record, from fetch and from
`exec`, with and without the opcode byte. -/
theorem test_witness_error_stop : after (mk .fault 253 [] [(253, 0x11)]) (fun t => (t.run, t.err.isSome)) =
    some (.faulted, true) ∧ after (mk .fault 254 [] []) (fun t => (t.run, t.err.isSome)) = some (.faulted, true) ∧
    (mk .fault 253 [] [(253, 0x11)]).cell 253 = some 0x11 := by decide
theorem test_witness_running_next : let s := mk .fault 0 [] []
    s.run = .running ∧ (∃ t, exec .hlt s = .next t) ∧ ∃ t, exec (.prn 0) s = .next t := ⟨rfl, ⟨_, rfl⟩, ⟨_, rfl⟩⟩
/-- `StoredByteIsReadNext`, the byte fetched as opcode: a PUSH of HLT onto the next instruction (95_test_vectors.md P6, whose
third step this is). -/
theorem test_witness_stored_opcode : let s := mk .fault 6 [(7, 9), (0, 0x01)] [(6, 0x45), (7, 0), (8, 0x02)]
    s.written spIdx = true ∧ s.regReadable 0 = true ∧ (0x01 : Byte) = (if (0 : Fin 8) = spIdx then s.reg spIdx - 1 else s.regVal 0) ∧
      s.run = .running ∧ (nextOf (exec (.push (regByte 0)) s)).map (·.pc) = some 8 ∧ (s.reg spIdx - 1).toNat = 8 ∧
      decode [0x01] = .ok (.hlt, []) := ⟨rfl, rfl, rfl, rfl, by decide, by decide, rfl⟩
/-- The byte used as operand: a CALL to 0xF2 stores its return address 0x12 at 0xF3, as the operand of the PRN at 0xF2. -/
theorem test_witness_stored_operand : let s := mk .fault 0x10 [(1, 0xF2)] [(0x10, 0x50), (0x11, 1), (0xF2, 0x47)]
    s.written spIdx = true ∧ s.regReadable 1 = true ∧ (0x12 : Byte) = BitVec.ofNat 8 (s.pc + 2) ∧ s.run = .running ∧
      (nextOf (exec (.call (regByte 1)) s)).map (·.pc) = some 0xF2 ∧ 0xF2 + 1 = (s.reg spIdx - 1).toNat ∧
      s.cell 0xF2 = some 0x47 ∧ decode [0x47, 0x12] = .ok (.prn 0x12, []) :=
  ⟨rfl, rfl, rfl, rfl, by decide, by decide, rfl, rfl⟩
/-- An illegal byte: a CALL R7 fetches its own return address (95_test_vectors.md V-CALL-2), and a PUSH stores one at the
highest address it can stand, 253. -/
theorem test_witness_stored_illegal : let s := mk .fault 0x10 [] []
    let u := mk .fault 251 [(7, 254), (0, 2)] []
    s.written spIdx = true ∧ s.regReadable 7 = true ∧ BitVec.ofNat 8 (s.pc + 2) ∉ nineOpcodes ∧ s.run = .running ∧
      (nextOf (exec (.call (regByte 7)) s)).map (·.pc) = some (s.reg spIdx - 1).toNat ∧
    u.written spIdx = true ∧ u.regReadable 0 = true ∧ u.regVal 0 ∉ nineOpcodes ∧ u.run = .running ∧
      (nextOf (exec (.push (regByte 0)) u)).map (·.pc) = some 253 ∧ (u.reg spIdx - 1).toNat = 253 := by decide
theorem test_witness_push_then_pop : let s := mk .fault 0 [(7, 0), (3, 0x5A)] []
    s.written spIdx = true ∧ s.written 3 = true := by decide
/-- `CallThenRetResumesAfterTheCall`: the state right after the CALL is itself a later state of the kind it speaks of. -/
theorem test_witness_call_then_ret : let s := mk .fault 253 [(1, 0x40)] []
    s.pc ≤ 253 ∧ s.written spIdx = true ∧ s.regReadable 1 = true ∧
      (nextOf (exec (.call 1) s)).map (·.written spIdx) = some true := by decide
theorem test_witness_load : (load 0 [0x01] (State.resetWith .fault)).isSome = true ∧ 256 < 245 + (List.replicate 12 (0 : Byte)).length ∧
    255 + [(0x01 : Byte)].length ≤ 256 := by decide
theorem test_witness_invariant : State.reset.Inv ∧ ∃ t, step State.reset = .next t :=
  ⟨⟨⟨by simp [State.reset, State.resetWith], by simp [State.reset, State.resetWith]⟩, by decide, by decide, by decide,
    fun e h => nomatch h⟩, ⟨_, rfl⟩⟩
theorem test_witness_load_keeps_invariant : (State.resetWith .fault).Inv ∧ (load 0 [0x01] (State.resetWith .fault)).isSome = true :=
  ⟨⟨⟨by simp [State.resetWith], by simp [State.resetWith]⟩, by decide, by decide, by decide, fun e h => nomatch h⟩, by decide⟩
theorem test_witness_not_draw : (mk .fault 0 [] []).uninit ≠ .draw ∧ (mk .hold 0 [] []).uninit ≠ .draw := by decide
/-- Two different states that show the host the same: they differ in what an unwritten register holds. -/
theorem test_witness_same_shown : let s := mk .draw 0 [] []
    let t : State := { s with regs := s.regs.set 0 0x99 }
    s.uninit ≠ .hold ∧ SameShown s t ∧ s ≠ t := by
  refine ⟨by decide, ⟨by decide, rfl, rfl⟩, by decide⟩

end Sys2Proof.Tests
end

section
/-! PROOFS. What a completing instruction keeps, said once for all instructions: an inversion lemma for `exec` from which the
invariant and the rules about the run state follow. -/

namespace Sys2Proof.Machine

theorem EffectOrStop.imp {i : Instr} {s t : State} {p q : Prop} (h : EffectOrStop i s t p) (f : p → q) :
    EffectOrStop i s t q := Or.imp_left f h

theorem length_le_three (i : Instr) : i.length ≤ 3 := by
  cases i <;> simp

/-- What every write of a completing instruction but HLT's keeps: memory in canonical form, written registers written, the run
state and the error record. -/
structure Keeps (s t : State) : Prop where
  memWf : s.mem.wf → t.mem.wf
  written : ∀ r, s.written r = true → t.written r = true
  run : t.run = s.run
  err : t.err = s.err

namespace Keeps

variable {s t : State}

theorem refl (s : State) : Keeps s s := ⟨id, fun _ => id, rfl, rfl⟩

theorem setReg (h : Keeps s t) (i : Fin 8) (v : Byte) : Keeps s (t.setReg i v) where
  memWf := h.memWf
  written r hr := by simp [State.setReg_written, h.written r hr]
  run := h.run
  err := h.err

theorem setPc (h : Keeps s t) (n : Nat) : Keeps s (t.setPc n) := ⟨h.memWf, h.written, h.run, h.err⟩

theorem emit (h : Keeps s t) (v : Byte) : Keeps s (t.emit v) := ⟨h.memWf, h.written, h.run, h.err⟩

theorem setCell (h : Keeps s t) (a v : Byte) : Keeps s (t.setCell a.toNat v) where
  memWf hs := Memory.store_wf (h.memWf hs) v a.isLt
  written := h.written
  run := h.run
  err := h.err

theorem afterDraw (h : Keeps s t) : Keeps s t.afterDraw := ⟨h.memWf, h.written, h.run, h.err⟩

theorem afterRegRead (h : Keeps s t) (r : Fin 8) : Keeps s (t.afterRegRead r) := by
  rcases t.afterRegRead_cases r with e | ⟨-, e⟩ <;> rw [e]
  exacts [h, h.afterDraw]

theorem afterLatch (h : Keeps s t) (l : Option Byte) : Keeps s (t.afterLatch l) := by
  rcases t.afterLatch_cases l with e | ⟨-, e⟩ <;> rw [e]
  exacts [h, h.afterDraw]

theorem spLowered (h : Keeps s t) : Keeps s t.spLowered := (h.afterRegRead spIdx).setReg _ _

theorem incSp {u : State} (h : Keeps s t) (hu : incSp t = .ok u) : Keeps s u := by
  obtain ⟨-, rfl⟩ := incSp_ok hu
  exact (h.afterRegRead spIdx).setReg _ _

end Keeps

/-- `pc` after a completing instruction: advanced, or a byte that CALL or RET put there. -/
def PcAdvancedOrByte (i : Instr) (s t : State) : Prop := t.pc = s.pc + i.length ∨ t.pc ≤ 255

theorem aluRegs_keeps {op : AluOp} {a b : Byte} {s t : State} (h : aluRegs op a b s = .ok t) :
    Keeps s t ∧ t.pc = s.pc := by
  obtain ⟨ra, rb, -, -, -, -, rfl⟩ := aluRegs_ok h
  exact ⟨(((Keeps.refl s).afterRegRead ra).afterRegRead rb).setReg _ _, by simp⟩

/-- Every instruction but HLT either completes, keeping what `Keeps` says, or makes the error stop. -/
theorem exec_keeps {i : Instr} {s t : State} (hi : i ≠ .hlt) (h : exec i s = .next t) :
    EffectOrStop i s t (Keeps s t ∧ PcAdvancedOrByte i s t) := by
  have alu_keeps {op : AluOp} {a b : Byte} (hl : i.length = 3) (ht : aluRegs op a b (s.setPc (s.pc + 3)) = .ok t) :
      Keeps s t ∧ PcAdvancedOrByte i s t := by
    obtain ⟨hk, hp⟩ := aluRegs_keeps ht
    exact ⟨⟨hk.memWf, hk.written, hk.run, hk.err⟩, .inl (by simpa [hl] using hp)⟩
  cases i with
  | hlt => exact absurd rfl hi
  | ldi a b =>
    refine (execLdi_cases h).imp ?_
    rintro ⟨r, -, rfl⟩
    exact ⟨((Keeps.refl s).setPc _).setReg r b, .inl (by simp)⟩
  | add a b => exact (execAdd_cases h).imp (alu_keeps (length_add a b))
  | mul a b => exact (execMul_cases h).imp (alu_keeps (length_mul a b))
  | prn a =>
    refine (execPrn_cases h).imp ?_
    rintro ⟨r, -, -, rfl⟩
    exact ⟨(((Keeps.refl s).setPc _).afterRegRead r).emit _, .inl (by simp)⟩
  | push a =>
    refine (execPush_cases h).imp ?_
    rintro ⟨r, -, -, -, rfl⟩
    exact ⟨((((Keeps.refl s).setPc _).spLowered).afterRegRead r).setCell _ _, .inl (by simp [State.spLowered])⟩
  | pop a =>
    refine (execPop_cases h).imp ?_
    rintro ⟨r, s1, s2, -, hr, -, rfl, ht⟩
    obtain ⟨-, -, rfl⟩ := readReg_ok hr
    refine ⟨(((((Keeps.refl s).setPc _).afterRegRead spIdx).afterLatch _).setReg r _).incSp ht, .inl ?_⟩
    obtain ⟨-, rfl⟩ := incSp_ok ht
    simp
  | call a =>
    refine (execCall_cases h).imp ?_
    rintro ⟨r, s1, -, -, rfl, -, rfl⟩
    exact ⟨(((((Keeps.refl s).setPc _).spLowered).setCell _ _).afterRegRead r).setPc _, .inr (Nat.le_of_lt_succ (BitVec.isLt _))⟩
  | ret =>
    refine (execRet_cases h).imp ?_
    rintro ⟨s1, hr, -, ht⟩
    obtain ⟨-, -, rfl⟩ := readReg_ok hr
    refine ⟨(((((Keeps.refl s).setPc _).afterRegRead spIdx).afterLatch _).setPc _).incSp ht, .inr ?_⟩
    obtain ⟨-, rfl⟩ := incSp_ok ht
    simpa using Nat.le_of_lt_succ (BitVec.isLt _)

theorem exec_hlt (s : State) : exec .hlt s = .next (s.setPc (s.pc + 1)).halt := execHlt_next s

/-! ### The invariant -/

theorem State.Inv.err_eq_none {s : State} (h : s.Inv) (hr : s.run ≠ .faulted) : s.err = none := by
  cases he : s.err with
  | none => rfl
  | some e => exact absurd (h.errIffFaulted.mp (by simp [he])) hr

/-- The invariant of a state that has not stopped with an error. -/
theorem State.inv_of_no_error {s : State} (hm : s.mem.wf) (hp : s.pc ≤ 256) (hw : s.written spIdx = true)
    (hr : s.run ≠ .faulted) (he : s.err = none) : s.Inv where
  memWf := hm
  pcBound := hp
  spWritten := hw
  errIffFaulted := by simp [he, hr]
  errPrecise := by simp [he]

/-- An error stop with an error the core does raise keeps the invariant. -/
theorem State.Inv.raise {s : State} (h : s.Inv) (ir : Option Byte) {e : ErrKind} (he : e.reserved = false) :
    (s.raise ir e).Inv where
  memWf := h.memWf
  pcBound := h.pcBound
  spWritten := h.spWritten
  errIffFaulted := by simp
  errPrecise := by simp [he]

/-- An instruction that can be fetched keeps the invariant. -/
theorem State.Inv.of_exec {i : Instr} {s t : State} (hs : s.Inv) (hr : s.run = .running) (hp : s.pc ≤ 253)
    (h : exec i s = .next t) : t.Inv := by
  have herr : s.err = none := hs.err_eq_none (by simp [hr])
  by_cases hi : i = .hlt
  · subst hi
    rw [exec_hlt] at h
    cases h
    exact State.inv_of_no_error hs.memWf (by simp; omega) hs.spWritten (by simp) herr
  · rcases exec_keeps hi h with ⟨hk, hpc⟩ | ⟨e, he, rfl⟩
    · have hlen := length_le_three i
      have hpc' : t.pc ≤ 256 := by rcases hpc with hpc | hpc <;> omega
      exact State.inv_of_no_error (hk.memWf hs.memWf) hpc' (hk.written _ hs.spWritten) (by simp [hk.run, hr])
        (hk.err.trans herr)
    · exact hs.raise _ he

end Sys2Proof.Machine
end

section
/-! PROOFS. What a fetch answers, branch by branch (40_cycle.md R80 to R85), and what a step makes of it. -/

namespace Sys2Proof.Machine

/-! ### Reads of registers and cells -/

theorem readReg_of_written {i : Fin 8} {s : State} (h : s.written i = true) : readReg i s = .ok (s.reg i, s) := by
  rw [readReg_of_readable (State.regReadable_of_written h), State.regVal_of_written h, State.afterRegRead_of_written h]

theorem readReg_of_draw {i : Fin 8} {s : State} (h : s.written i = false) (hu : s.uninit = .draw) :
    readReg i s = .ok (s.drawn, s.afterDraw) := by
  have hd : s.regDraws i = true := State.regDraws_iff.mpr ⟨h, hu⟩
  rw [readReg_of_readable (State.regReadable_iff.mpr (.inr (by simp [hu])))]
  simp [State.regVal, State.afterRegRead, hd]

theorem readReg_of_hold {i : Fin 8} {s : State} (hu : s.uninit = .hold) : readReg i s = .ok (s.reg i, s) := by
  rw [readReg_of_readable (State.regReadable_iff.mpr (.inr (by simp [hu])))]
  simp [State.regVal, State.afterRegRead, State.regDraws, hu]

theorem memRead_of_le {a : Nat} {s : State} (h : a ≤ 255) : memRead a s = useLatch (s.cell a) a s :=
  if_neg (by simp only [Config.memSize]; omega)

theorem memRead_of_cell {a : Nat} {v : Byte} {s : State} (h : a ≤ 255) (hc : s.cell a = some v) :
    memRead a s = .ok (v, s) := by
  rw [memRead_of_le h, hc, useLatch_some]

theorem memRead_of_unwritten {a : Nat} {s : State} (hu : s.uninit ≠ .draw) (h : a ≤ 255) (hc : s.cell a = none) :
    memRead a s = .error (.uninitialisedRead .memory a) := by
  rw [memRead_of_le h, hc, useLatch_of_unreadable hu]

/-! ### Fetch -/

theorem exists_opcodeMap_of_mem {ir : Byte} (h : ir ∈ nineOpcodes) : ∃ make, opcodeMap ir = some make :=
  Option.ne_none_iff_exists'.mp fun hn => (opcodeMap_none_iff ir).mp hn h

theorem fetchBounds_of_le {pc : Nat} (h : pc ≤ 253) : fetchBounds pc = .ok () := by
  have hm : Config.memSize = 256 := rfl
  rw [fetchBounds, if_neg (by omega), if_neg (by omega)]

theorem fetchBounds_error {pc : Nat} (h : 253 < pc) : ∃ e, fetchBounds pc = .error e ∧ e.reserved = false := by
  have hm : Config.memSize = 256 := rfl
  by_cases hpc : pc ≥ Config.memSize
  · exact ⟨.outOfBoundsAccess .fetch pc, if_pos hpc, rfl⟩
  · exact ⟨.outOfBoundsAccess .prefetch 256, (if_neg hpc).trans (if_pos (by omega)), rfl⟩

theorem fetch_of_bounds_error {s : State} {e : ErrKind} (h : fetchBounds s.pc = .error e) : fetch s = .error (none, e) := by
  unfold fetch
  rw [h]
  rfl

section
variable {s u : State} (hpc : s.pc ≤ 253)
include hpc

theorem fetch_of_opcode_error {e : ErrKind} (hr : memRead s.pc s = .error e) : fetch s = .error (none, e) := by
  unfold fetch
  rw [fetchBounds_of_le hpc, hr]
  rfl

theorem fetch_of_illegal {ir : Byte} (hr : memRead s.pc s = .ok (ir, u)) (ho : opcodeMap ir = none) :
    fetch s = .error (some ir, .unrecognizedOpcode) := by
  unfold fetch
  rw [fetchBounds_of_le hpc, hr]
  simp only [withIr, bind, Except.bind, ho]

theorem fetch_of_legal {ir : Byte} {make : Byte → Byte → Instr} (hr : memRead s.pc s = .ok (ir, u))
    (ho : opcodeMap ir = some make) :
    fetch s = withIr (some ir)
      (fetchOperands s.pc (operandCount ir) (s.cell (s.pc + 1)) (s.cell (s.pc + 2)) make u) := by
  unfold fetch
  rw [fetchBounds_of_le hpc, hr]
  simp only [withIr, bind, Except.bind, ho]

end

theorem operandByte_error {k n addr : Nat} {l : Option Byte} {s : State} {e : ErrKind}
    (h : operandByte k n l addr s = .error e) : e = .uninitialisedRead .memory addr := by
  unfold operandByte at h
  split_ifs at h
  exact (useLatch_error h).2.2

theorem fetchOperands_error_kind {pc n : Nat} {la lb : Option Byte} {make : Byte → Byte → Instr} {s : State} {e : ErrKind}
    (h : fetchOperands pc n la lb make s = .error e) : e.reserved = false := by
  rcases bind_error h with ha | ⟨⟨a, s1⟩, -, h⟩
  · rw [operandByte_error ha]; rfl
  rcases bind_error h with hb | ⟨⟨b, s2⟩, -, h⟩
  · rw [operandByte_error hb]; rfl
  · cases h

/-- A fetch raises no reserved error: it reads no cell out of range. -/
theorem fetch_error_kind {s : State} {ir : Option Byte} {e : ErrKind} (h : fetch s = .error (ir, e)) :
    e.reserved = false := by
  by_cases hpc : s.pc ≤ 253
  · cases hr : memRead s.pc s with
    | error e' =>
      rw [fetch_of_opcode_error hpc hr] at h
      cases h
      rw [memRead_of_le (by omega)] at hr
      rw [(useLatch_error hr).2.2]
      rfl
    | ok p =>
      cases ho : opcodeMap p.1 with
      | none =>
        rw [fetch_of_illegal hpc hr ho] at h
        cases h
        rfl
      | some make =>
        rw [fetch_of_legal hpc hr ho] at h
        cases hf : fetchOperands s.pc (operandCount p.1) (s.cell (s.pc + 1)) (s.cell (s.pc + 2)) make p.2 with
        | error e' =>
          rw [hf] at h
          cases h
          exact fetchOperands_error_kind hf
        | ok q =>
          rw [hf] at h
          cases h
  · obtain ⟨e', hb, he⟩ := fetchBounds_error (Nat.lt_of_not_le hpc)
    rw [fetch_of_bounds_error hb] at h
    cases h
    exact he

/-! ### Operands -/

section
variable {pc n : Nat} {la lb : Option Byte} {make : Byte → Byte → Instr} {s : State}

theorem fetchOperands_of_unwritten_a (hu : s.uninit ≠ .draw) (hn : 1 ≤ n) :
    fetchOperands pc n none lb make s = .error (.uninitialisedRead .memory (pc + 1)) := by
  simp only [fetchOperands, operandByte, if_pos hn, useLatch_of_unreadable hu]
  rfl

theorem fetchOperands_of_unwritten_b (hu : s.uninit ≠ .draw) (hn : 2 ≤ n) (a : Byte) :
    fetchOperands pc n (some a) none make s = .error (.uninitialisedRead .memory (pc + 2)) := by
  simp only [fetchOperands, operandByte, if_pos hn, if_pos (show 1 ≤ n by omega), useLatch_some]
  simp only [bind, Except.bind, useLatch_of_unreadable hu]

theorem useLatch_of_draw {l : Option Byte} {addr : Nat} (hu : s.uninit = .draw) :
    useLatch l addr s =
      .ok (l.getD (Config.drawByte s.draws), { s with draws := if l.isSome then s.draws else s.draws + 1 }) := by
  rw [useLatch_of_readable (State.latchReadable_iff.mpr (.inr hu))]
  cases l <;> rfl

/-- An operand under `draw` is always answered: the cell's byte or the next free value where it is used. -/
theorem operandByte_of_draw {k addr : Nat} {l : Option Byte} (hu : s.uninit = .draw) :
    ∃ v d, operandByte k n l addr s = .ok (v, { s with draws := d }) ∧
      (k ≤ n → v = l.getD (Config.drawByte s.draws) ∧ d = if l.isSome then s.draws else s.draws + 1) := by
  by_cases hk : k ≤ n
  · exact ⟨_, _, (if_pos hk).trans (useLatch_of_draw hu), fun _ => ⟨rfl, rfl⟩⟩
  · exact ⟨0, s.draws, if_neg hk, fun h => absurd h hk⟩

theorem fetchOperands_of_draw (hu : s.uninit = .draw) :
    ∃ a b d, fetchOperands pc n la lb make s = .ok (make a b, { s with draws := d }) ∧
      (1 ≤ n → a = la.getD (Config.drawByte s.draws)) ∧
      (2 ≤ n → b = lb.getD (Config.drawByte (if la.isSome then s.draws else s.draws + 1))) := by
  obtain ⟨a, d1, ha, hav⟩ := operandByte_of_draw (k := 1) (n := n) (addr := pc + 1) (l := la) hu
  obtain ⟨b, d2, hb, hbv⟩ := operandByte_of_draw (k := 2) (n := n) (addr := pc + 2) (l := lb)
    (s := { s with draws := d1 }) hu
  refine ⟨a, b, d2, ?_, fun h => (hav h).1, fun h => ?_⟩
  · simp only [fetchOperands, ha, hb, bind, Except.bind, pure, Except.pure]
  · rw [(hbv h).1, (hav (by omega)).2]

end

/-! ### The cell at `sp` -/

theorem execPop_of_memRead_error {r : Fin 8} {s u : State} {sp : Byte} {e : ErrKind}
    (hsp : readReg spIdx (s.setPc (s.pc + 2)) = .ok (sp, u)) (hm : memRead sp.toNat u = .error e) :
    execPop (regByte r) s = .next (s.raise (some 0x46) e) := by
  refine execute_error (i := .pop (regByte r)) ?_
  simp only [length_pop, regOperand_regByte, hsp, hm, bind, Except.bind]

theorem execRet_of_memRead_error {s u : State} {sp : Byte} {e : ErrKind}
    (hsp : readReg spIdx (s.setPc (s.pc + 1)) = .ok (sp, u)) (hm : memRead sp.toNat u = .error e) :
    execRet s = .next (s.raise (some 0x11) e) := by
  refine execute_error (i := .ret) ?_
  simp only [length_ret, hsp, hm, bind, Except.bind]

/-! ### Step -/

theorem step_of_fetch_error {s : State} {ir : Option Byte} {e : ErrKind} (hr : s.run = .running)
    (hf : fetch s = .error (ir, e)) : step s = .next (s.raise ir e) := by
  simp only [step, hr, hf]

theorem step_of_fetch_ok {s u : State} {i : Instr} (hr : s.run = .running) (hf : fetch s = .ok (i, u)) :
    step s = exec i u := by
  simp only [step, hr, hf]

/-- Every step keeps the invariant. -/
theorem State.Inv.of_step {s t : State} (hs : s.Inv) (h : step s = .next t) : t.Inv := by
  have hr := step_next_running h
  rcases step_running hr with ⟨i, u, hf, hstep⟩ | ⟨ir, e, hf, hstep⟩
  · obtain ⟨hpc, d, -, rfl⟩ := fetch_ok hf
    have hu : ({ s with draws := d } : State).Inv :=
      ⟨hs.memWf, hs.pcBound, hs.spWritten, hs.errIffFaulted, hs.errPrecise⟩
    exact hu.of_exec hr hpc (hstep ▸ h)
  · rw [hstep] at h
    cases h
    exact hs.raise ir (fetch_error_kind hf)

end Sys2Proof.Machine
end

section
/-! PROOFS. Noninterference: two states that show a host the same, under a policy of the spec's own, take every operation of the
core to the same answer. One lemma per operation, composed along the definitions. -/

namespace Sys2Proof.Machine

/-! ### Computations that answer alike -/

/-- Two computations fail with the same error or answer with related results. -/
inductive ExceptRel {ε α : Type} (R : α → α → Prop) : Except ε α → Except ε α → Prop where
  | ok {a b : α} (h : R a b) : ExceptRel R (.ok a) (.ok b)
  | error (e : ε) : ExceptRel R (.error e) (.error e)

namespace ExceptRel

variable {ε α β : Type} {R : α → α → Prop} {S : β → β → Prop}

theorem bind {x y : Except ε α} {f g : α → Except ε β} (h : ExceptRel R x y)
    (hf : ∀ a b, R a b → ExceptRel S (f a) (g b)) : ExceptRel S (x >>= f) (y >>= g) := by
  cases h with
  | ok h => exact hf _ _ h
  | error e => exact .error e

/-- A first computation that does not look at the state. -/
theorem bind_same (x : Except ε α) {f g : α → Except ε β} (hf : ∀ a, ExceptRel S (f a) (g a)) :
    ExceptRel S (x >>= f) (x >>= g) := by
  cases x with
  | ok a => exact hf a
  | error e => exact .error e

theorem withIr {x y : Except ErrKind α} (h : ExceptRel R x y) (ir : Option Byte) :
    ExceptRel R (withIr ir x) (withIr ir y) := by
  cases h with
  | ok h => exact .ok h
  | error e => exact .error (ir, e)

end ExceptRel

/-! ### States that show the same -/

theorem State.shown_isSome (s : State) (i : Fin 8) : (s.shown i).isSome = s.written i := by
  unfold State.shown
  split_ifs with h <;> simp [h]

theorem State.shown_of_written {s : State} {i : Fin 8} (h : s.written i = true) : s.shown i = some (s.reg i) := if_pos h

theorem State.setReg_shown (s : State) (i r : Fin 8) (v : Byte) :
    (s.setReg i v).shown r = if r = i then some v else s.shown r := by
  split_ifs with h
  · subst h; simp [State.shown]
  · simp [State.shown, State.setReg_reg_other s h, State.setReg_written_other s h]

/-- `SameShown` under a policy of the spec's own, field by field. -/
structure Alike (s t : State) : Prop where
  shown : ∀ i, s.shown i = t.shown i
  pc : s.pc = t.pc
  mem : s.mem = t.mem
  run : s.run = t.run
  err : s.err = t.err
  out : s.out = t.out
  uninit : s.uninit = t.uninit
  draws : s.draws = t.draws
  noHold : s.uninit ≠ .hold

theorem observe_eq_iff {s t : State} :
    observe s = observe t ↔ (∀ i, s.shown i = t.shown i) ∧ s.pc = t.pc ∧ s.mem = t.mem ∧ s.run = t.run ∧ s.err = t.err ∧
      s.out = t.out := by
  simp only [observe, Observation.mk.injEq, List.map_inj_left, List.mem_finRange, true_implies]
  tauto

theorem alike_iff {s t : State} : Alike s t ↔ s.uninit ≠ .hold ∧ SameShown s t := by
  rw [SameShown, observe_eq_iff]
  constructor
  · rintro ⟨hshown, hpc, hmem, hrun, herr, hout, hu, hd, hh⟩
    exact ⟨hh, ⟨hshown, hpc, hmem, hrun, herr, hout⟩, hu, hd⟩
  · rintro ⟨hh, ⟨hshown, hpc, hmem, hrun, herr, hout⟩, hu, hd⟩
    exact ⟨hshown, hpc, hmem, hrun, herr, hout, hu, hd, hh⟩

namespace Alike

variable {s t : State}

theorem sameShown (h : Alike s t) : SameShown s t := (alike_iff.mp h).2

theorem written (h : Alike s t) (i : Fin 8) : s.written i = t.written i := by
  rw [← s.shown_isSome, h.shown, t.shown_isSome]

theorem reg (h : Alike s t) {i : Fin 8} (hw : s.written i = true) : s.reg i = t.reg i := by
  have hi := h.shown i
  rw [State.shown_of_written hw, State.shown_of_written (h.written i ▸ hw)] at hi
  exact Option.some.inj hi

theorem cell (h : Alike s t) (a : Nat) : s.cell a = t.cell a := by
  simp only [State.cell, h.mem]

theorem setReg (h : Alike s t) (i : Fin 8) (v : Byte) : Alike (s.setReg i v) (t.setReg i v) :=
  { h with shown := fun r => by rw [State.setReg_shown, State.setReg_shown, h.shown] }

theorem setPc (h : Alike s t) (n : Nat) : Alike (s.setPc n) (t.setPc n) := { h with pc := rfl }

theorem emit (h : Alike s t) (v : Byte) : Alike (s.emit v) (t.emit v) :=
  { h with out := congrArg (· ++ [v]) h.out }

theorem halt (h : Alike s t) : Alike s.halt t.halt := { h with run := rfl }

theorem afterDraw (h : Alike s t) : Alike s.afterDraw t.afterDraw := { h with draws := congrArg (· + 1) h.draws }

theorem setCell (h : Alike s t) (a : Nat) (v : Byte) : Alike (s.setCell a v) (t.setCell a v) :=
  { h with mem := congrArg (Memory.store · a v) h.mem }

theorem raise (h : Alike s t) (ir : Option Byte) (e : ErrKind) : Alike (s.raise ir e) (t.raise ir e) :=
  { h with run := rfl, err := by rw [State.raise_err, State.raise_err, h.pc] }

/-- The same value, and states that are alike. -/
def Answer {α : Type} (p q : α × State) : Prop := p.1 = q.1 ∧ Alike p.2 q.2

/-- The first computation answers a value and a state. -/
theorem bind {ε α β : Type} {R : β → β → Prop} {x y : Except ε (α × State)} {f g : α × State → Except ε β}
    (h : ExceptRel Answer x y) (hf : ∀ a u v, Alike u v → ExceptRel R (f (a, u)) (g (a, v))) :
    ExceptRel R (x >>= f) (y >>= g) := by
  refine h.bind ?_
  rintro ⟨a, u⟩ ⟨_, v⟩ ⟨rfl, huv⟩
  exact hf a u v huv

end Alike

/-! ### The shared operations -/

section
variable {s t : State} (h : Alike s t)
include h

/-- The key fact: only a written register's value, which shows, can be read. -/
theorem readReg_alike (i : Fin 8) : ExceptRel Alike.Answer (readReg i s) (readReg i t) := by
  cases hw : s.written i with
  | true =>
    rw [readReg_of_written hw, readReg_of_written (h.written i ▸ hw)]
    exact .ok ⟨h.reg hw, h⟩
  | false =>
    have hw' : t.written i = false := h.written i ▸ hw
    cases hu : s.uninit with
    | fault =>
      rw [readReg_of_unreadable hw hu, readReg_of_unreadable hw' (h.uninit ▸ hu)]
      exact .error _
    | draw =>
      rw [readReg_of_draw hw hu, readReg_of_draw hw' (h.uninit ▸ hu)]
      exact .ok ⟨congrArg Config.drawByte h.draws, h.afterDraw⟩
    | hold => exact absurd hu h.noHold

theorem useLatch_alike (l : Option Byte) (a : Nat) : ExceptRel Alike.Answer (useLatch l a s) (useLatch l a t) := by
  cases l with
  | some v =>
    rw [useLatch_some, useLatch_some]
    exact .ok ⟨rfl, h⟩
  | none =>
    by_cases hu : s.uninit = .draw
    · rw [useLatch_of_readable (State.latchReadable_iff.mpr (.inr hu)),
        useLatch_of_readable (State.latchReadable_iff.mpr (.inr (h.uninit ▸ hu)))]
      exact .ok ⟨congrArg Config.drawByte h.draws, h.afterDraw⟩
    · rw [useLatch_of_unreadable hu, useLatch_of_unreadable (h.uninit ▸ hu)]
      exact .error _

theorem memRead_alike (a : Nat) : ExceptRel Alike.Answer (memRead a s) (memRead a t) := by
  unfold memRead
  split_ifs
  · exact .error _
  · rw [h.cell]
    exact useLatch_alike h _ a

theorem memWrite_alike (a : Nat) {v w : Nat} (hv : v = w) : ExceptRel Alike (memWrite a v s) (memWrite a w t) := by
  subst hv
  unfold memWrite
  split_ifs
  · exact .error _
  · exact .ok (h.setCell a _)

theorem decSp_alike : ExceptRel Alike.Answer (decSp s) (decSp t) :=
  Alike.bind (readReg_alike h spIdx) fun _ _ _ h => .ok ⟨rfl, h.setReg spIdx _⟩

theorem incSp_alike : ExceptRel Alike (incSp s) (incSp t) :=
  Alike.bind (readReg_alike h spIdx) fun _ _ _ h => .ok (h.setReg spIdx _)

theorem operandByte_alike (k n : Nat) (l : Option Byte) (a : Nat) :
    ExceptRel Alike.Answer (operandByte k n l a s) (operandByte k n l a t) := by
  unfold operandByte
  split_ifs
  · exact useLatch_alike h l a
  · exact .ok ⟨rfl, h⟩

theorem fetchOperands_alike (pc n : Nat) (la lb : Option Byte) (make : Byte → Byte → Instr) :
    ExceptRel Alike.Answer (fetchOperands pc n la lb make s) (fetchOperands pc n la lb make t) :=
  Alike.bind (operandByte_alike h 1 n la _) fun _ _ _ h =>
    Alike.bind (operandByte_alike h 2 n lb _) fun _ _ _ h => .ok ⟨rfl, h⟩

theorem fetch_alike : ExceptRel Alike.Answer (fetch s) (fetch t) := by
  unfold fetch
  rw [← h.pc, ← h.cell, ← h.cell]
  refine .bind_same _ fun _ => Alike.bind ((memRead_alike h s.pc).withIr none) fun ir u v huv => ?_
  cases ho : opcodeMap ir with
  | none => simp only [ho]; exact .error _
  | some make => simp only [ho]; exact (fetchOperands_alike huv _ _ _ _ make).withIr (some ir)

/-! ### Instructions and the step -/

theorem aluRegs_alike (op : AluOp) (a b : Byte) : ExceptRel Alike (aluRegs op a b s) (aluRegs op a b t) :=
  .bind_same _ fun ra => .bind_same _ fun rb =>
    Alike.bind (readReg_alike h ra) fun _ _ _ h => Alike.bind (readReg_alike h rb) fun _ _ _ h => .ok (h.setReg ra _)

/-- An instruction whose body keeps states alike does so too: its error stop shows the same. -/
theorem execute_alike (i : Instr) {body : State → Except ErrKind State}
    (hb : ∀ u v, Alike u v → ExceptRel Alike (body u) (body v)) :
    OutcomeRel SameShown (execute i s body) (execute i t body) := by
  have hbody := hb _ _ (h.setPc (s.pc + i.length))
  unfold execute
  rw [← h.pc]
  generalize body (s.setPc _) = x, body (t.setPc _) = y at hbody
  cases hbody with
  | ok h' => exact h'.sameShown
  | error e => exact (h.raise _ e).sameShown

theorem execLdi_alike (a b : Byte) : OutcomeRel SameShown (execLdi a b s) (execLdi a b t) :=
  execute_alike h _ fun _ _ h => .bind_same _ fun ra => .ok (h.setReg ra _)

theorem execPrn_alike (a : Byte) : OutcomeRel SameShown (execPrn a s) (execPrn a t) :=
  execute_alike h _ fun _ _ h => .bind_same _ fun ra => Alike.bind (readReg_alike h ra) fun v _ _ h => .ok (h.emit v)

theorem execPush_alike (a : Byte) : OutcomeRel SameShown (execPush a s) (execPush a t) := by
  refine execute_alike h _ fun _ _ h => .bind_same _ fun ra => ?_
  refine Alike.bind (decSp_alike h) fun sp _ _ h => ?_
  exact Alike.bind (readReg_alike h ra) fun v _ _ h => memWrite_alike h sp.toNat rfl

theorem execPop_alike (a : Byte) : OutcomeRel SameShown (execPop a s) (execPop a t) := by
  refine execute_alike h _ fun _ _ h => .bind_same _ fun ra => ?_
  refine Alike.bind (readReg_alike h spIdx) fun sp _ _ h => ?_
  exact Alike.bind (memRead_alike h sp.toNat) fun v _ _ h => incSp_alike (h.setReg ra v)

theorem execCall_alike (a : Byte) : OutcomeRel SameShown (execCall a s) (execCall a t) := by
  refine execute_alike h _ fun _ _ h => .bind_same _ fun ra => ?_
  refine Alike.bind (decSp_alike h) fun sp _ _ h => ?_
  refine ExceptRel.bind (memWrite_alike h sp.toNat h.pc) fun _ _ h => ?_
  exact Alike.bind (readReg_alike h ra) fun v _ _ h => .ok (h.setPc v.toNat)

theorem execRet_alike : OutcomeRel SameShown (execRet s) (execRet t) := by
  refine execute_alike h _ fun _ _ h => Alike.bind (readReg_alike h spIdx) fun sp _ _ h => ?_
  exact Alike.bind (memRead_alike h sp.toNat) fun v _ _ h => incSp_alike (h.setPc v.toNat)

theorem exec_alike (i : Instr) : OutcomeRel SameShown (exec i s) (exec i t) := by
  cases i with
  | ldi a b => exact execLdi_alike h a b
  | prn a => exact execPrn_alike h a
  | hlt => exact execute_alike h .hlt fun _ _ h => .ok h.halt
  | mul a b => exact execute_alike h _ fun _ _ h => aluRegs_alike h .mul a b
  | add a b => exact execute_alike h _ fun _ _ h => aluRegs_alike h .add a b
  | push a => exact execPush_alike h a
  | pop a => exact execPop_alike h a
  | call a => exact execCall_alike h a
  | ret => exact execRet_alike h

theorem step_alike : OutcomeRel SameShown (step s) (step t) := by
  have hf := fetch_alike h
  unfold step
  rw [← h.run]
  cases s.run with
  | halted => exact rfl
  | faulted => exact rfl
  | running =>
    generalize fetch s = x, fetch t = y at hf
    cases hf with
    | @ok p q h' =>
      obtain ⟨i, u⟩ := p
      obtain ⟨_, v⟩ := q
      obtain ⟨rfl, huv⟩ := h'
      exact exec_alike huv i
    | error e => exact (h.raise e.1 e.2).sameShown

end

end Sys2Proof.Machine
end

section
/-! PROOFS. The statements about the state (10_state.md) settled: the state after reset and load, then one theorem per
obligation. -/

namespace Sys2Proof.Machine

/-! ### Reset and load -/

namespace Memory

/-- A read after a load: the image's byte inside it, the old cell outside. -/
theorem cell?_storeFrom (m : Memory) (base : Nat) (image : List Byte) (a : Nat) :
    cell? (storeFrom m base image) a =
      if base ≤ a ∧ a < base + image.length then image[a - base]? else cell? m a := by
  induction image generalizing m base with
  | nil => simp [storeFrom]
  | cons v vs ih =>
    rw [storeFrom, ih, cell?_store, List.length_cons]
    rcases Nat.lt_trichotomy a base with h | rfl | h
    · rw [if_neg (by omega), if_neg (by omega), if_neg (by omega)]
    · rw [if_neg (by omega), if_pos rfl, if_pos (by omega), Nat.sub_self, List.getElem?_cons_zero]
    · have hs : a - base = (a - (base + 1)) + 1 := by omega
      rw [hs, List.getElem?_cons_succ, if_neg (show ¬ a = base by omega)]
      exact if_congr (by omega) rfl rfl

theorem cell?_storeFrom_inside (m : Memory) (base : Nat) {image : List Byte} {k : Nat} {v : Byte}
    (h : image[k]? = some v) : cell? (storeFrom m base image) (base + k) = some v := by
  have hk : k < image.length := (List.getElem?_eq_some_iff.mp h).1
  rw [cell?_storeFrom, if_pos (by omega), Nat.add_sub_cancel_left, h]

theorem cell?_storeFrom_outside (m : Memory) {base : Nat} {image : List Byte} {a : Nat}
    (h : a < base ∨ base + image.length ≤ a) : cell? (storeFrom m base image) a = cell? m a := by
  rw [cell?_storeFrom, if_neg (by omega)]

end Memory

theorem load_some {base : Nat} {image : List Byte} {s t : State} (h : load base image s = some t) :
    t = { s with mem := s.mem.storeFrom base image } := by
  unfold load at h
  split_ifs at h
  exact (Option.some.inj h).symm

/-- At reset `sp` alone is written. -/
theorem resetWith_written (p : UninitPolicy) (r : Fin 8) : (State.resetWith p).written r = decide (r = spIdx) := by
  change State.reset.written r = decide (r = spIdx)
  revert r
  decide

theorem resetWith_sp (p : UninitPolicy) : (State.resetWith p).reg spIdx = 0xF4 := rfl

theorem resetWith_inv (p : UninitPolicy) : (State.resetWith p).Inv :=
  State.inv_of_no_error (reset_mem_wf p) (Nat.zero_le _) (resetWith_written p spIdx) (by simp [State.resetWith]) rfl

end Sys2Proof.Machine

namespace Sys2Proof.Proofs

open Sys2Proof Sys2Proof.Machine

/-- Settles O43: a fetch moves the draw counter alone, and what it fetches completes, keeping what `Keeps` says, or stops with
an error that is not reserved. -/
theorem stepKeepsTheInvariant : Obligations.StepKeepsTheInvariant :=
  fun _ _ hs h => hs.of_step h

/-- Settles O45: every operation of the core, and so every step, takes states that are `Alike` to the same answer. -/
theorem unwrittenRegistersShowNoValue : Obligations.UnwrittenRegistersShowNoValue :=
  fun _ _ hu h => step_alike (alike_iff.mpr ⟨hu, h⟩)

/-- Settles O33: an instruction other than HLT completes with the run state it began in, or makes the error stop. -/
theorem onlyHltHaltsAndOnlyErrorsFault : Obligations.OnlyHltHaltsAndOnlyErrorsFault := by
  intro i s t hr h
  have stop_faults : (∃ e, t = s.raise (some i.opcode) e) → t.run = .faulted := by
    rintro ⟨e, rfl⟩
    rfl
  by_cases hi : i = .hlt
  · subst hi
    rw [exec_hlt] at h
    cases h
    exact ⟨by simp, nofun, fun he => nomatch stop_faults he⟩
  rcases exec_keeps hi h with ⟨hk, -⟩ | ⟨e, -, ht⟩
  · have hrun : t.run = .running := hk.run.trans hr
    exact ⟨by simp [hrun, hi], by simp [hrun], fun he => absurd (stop_faults he) (by simp [hrun])⟩
  · have hrun : t.run = .faulted := stop_faults ⟨e, ht⟩
    exact ⟨by simp [hrun, hi], fun _ => ⟨e, ht⟩, fun _ => hrun⟩

/-- Settles O39: the load changes memory alone, so every other field is the reset state's. -/
theorem stateAfterResetAndLoad : Obligations.StateAfterResetAndLoad := by
  intro p base image t h
  obtain rfl := load_some h
  refine ⟨rfl, resetWith_sp p, resetWith_written p spIdx, fun r hr => ?_, rfl, rfl, rfl, fun k v hv => ?_, fun a ha => ?_⟩
  · exact (resetWith_written p r).trans (decide_eq_false hr)
  · exact Memory.cell?_storeFrom_inside [] base hv
  · exact Memory.cell?_storeFrom_outside [] ha

/-- Settles O46: under `draw` the opcode read and every operand read answer, so the fetch fails at the dispatcher alone. -/
theorem unwrittenOpcodeIsDrawn : Obligations.UnwrittenOpcodeIsDrawn := by
  intro s hr hpc hu hc
  have hread : memRead s.pc s = .ok (Config.drawByte s.draws, { s with draws := s.draws + 1 }) := by
    rw [memRead_of_le (by omega), hc]
    exact useLatch_of_draw hu
  by_cases hn : Config.drawByte s.draws ∈ nineOpcodes
  · rw [if_pos hn]
    obtain ⟨make, ho⟩ := exists_opcodeMap_of_mem hn
    obtain ⟨a, b, d, hf, ha, hb⟩ := fetchOperands_of_draw (pc := s.pc) (n := operandCount (Config.drawByte s.draws))
      (la := s.cell (s.pc + 1)) (lb := s.cell (s.pc + 2)) (make := make) (s := { s with draws := s.draws + 1 }) hu
    have hfetch : fetch s = .ok (make a b, { s with draws := d }) := by
      rw [fetch_of_legal hpc hread ho, hf]
      rfl
    exact ⟨make, a, b, d, ho, opcodeMap_some ho a b, step_of_fetch_ok hr hfetch, ha, fun h => hb h.ge⟩
  · rw [if_neg hn]
    exact step_of_fetch_error hr (fetch_of_illegal hpc hread ((opcodeMap_none_iff _).mpr hn))

/-- Settles O25, one clause per state of the register and policy. -/
theorem registerReadFollowsThePolicy : Obligations.RegisterReadFollowsThePolicy :=
  fun _ _ => ⟨readReg_of_written, readReg_of_unreadable, readReg_of_draw⟩

/-- Settles O28: under `hold` a register read answers what the register holds, and a use of an unwritten cell fails. -/
theorem holdPolicyReads : Obligations.HoldPolicyReads := by
  have noDraw {s : State} (hu : s.uninit = .hold) : s.uninit ≠ .draw := by simp [hu]
  have unwritten_at_sp {s : State} {n : Nat} (hu : s.uninit = .hold) (hc : s.cell (s.reg spIdx).toNat = none) :
      memRead (s.reg spIdx).toNat (s.setPc n) = .error (.uninitialisedRead .memory (s.reg spIdx).toNat) :=
    memRead_of_unwritten (s := s.setPc n) (noDraw hu) (Nat.le_of_lt_succ (BitVec.isLt _)) hc
  refine ⟨fun _ _ => readReg_of_hold, fun addr s hu ha hc => ?_, fun s hr hu hpc hc => ?_, ?_, fun s hu hc => ⟨fun r => ?_, ?_⟩⟩
  · exact memRead_of_unwritten (noDraw hu) ha hc
  · exact step_of_fetch_error hr (fetch_of_opcode_error hpc (memRead_of_unwritten (noDraw hu) (by omega) hc))
  · intro s ir hr hu hpc hc hn
    obtain ⟨make, ho⟩ := exists_opcodeMap_of_mem hn
    have hf := fetch_of_legal hpc (memRead_of_cell (by omega) hc) ho
    refine ⟨fun h1 ha => step_of_fetch_error hr ?_, fun h2 ha hb => step_of_fetch_error hr ?_⟩
    · rw [hf, ha, fetchOperands_of_unwritten_a (n := operandCount ir) (noDraw hu) h1]
      rfl
    · obtain ⟨a, ha⟩ := Option.ne_none_iff_exists'.mp ha
      rw [hf, ha, hb, fetchOperands_of_unwritten_b (n := operandCount ir) (noDraw hu) h2.ge]
      rfl
  · exact execPop_of_memRead_error (readReg_of_hold hu) (unwritten_at_sp hu hc)
  · exact execRet_of_memRead_error (readReg_of_hold hu) (unwritten_at_sp hu hc)

/-- Settles O41: the reset state has no written cell, `sp` written and no error, whatever the policy. -/
theorem resetMeetsTheInvariant : Obligations.ResetMeetsTheInvariant :=
  ⟨resetWith_inv .hold, resetWith_inv⟩

end Sys2Proof.Proofs
end

section
/-! PROOFS. The statements about memory (20_memory.md): what `MemRead` and `MemWrite` answer on each side of the bound, what a
step makes of bytes that decode, and the one store of PUSH and of CALL, which the next step reads. -/

namespace Sys2Proof

/-- What decodes is a legal opcode byte with as many operand bytes after it as its bits 7:6 say (30_encoding.md R62, R69). -/
theorem decode_ok {bytes rest : List Byte} {j : Instr} (h : decode bytes = .ok (j, rest)) :
    ∃ ir make, opcodeMap ir = some make ∧
      ((operandCount ir = 0 ∧ bytes = ir :: rest ∧ j = make 0 0) ∨
       (∃ a, operandCount ir = 1 ∧ bytes = ir :: a :: rest ∧ j = make a 0) ∨
       (∃ a b, operandCount ir = 2 ∧ bytes = ir :: a :: b :: rest ∧ j = make a b)) := by
  unfold decode at h
  split at h
  · cases h
  next ir tail =>
    split at h
    · cases h
    next make ho =>
      refine ⟨ir, make, ho, ?_⟩
      split at h <;> cases h
      next hn => exact .inl ⟨hn, rfl, rfl⟩
      next a hn => exact .inr (.inl ⟨a, hn, rfl, rfl⟩)
      next a b hn => exact .inr (.inr ⟨a, b, hn, rfl, rfl⟩)

namespace Machine

/-! ### The bound of a memory access -/

theorem memRead_of_gt {a : Nat} {s : State} (h : 255 < a) : memRead a s = .error (.outOfBoundsAccess .memory a) := if_pos h

theorem memWrite_of_gt {a v : Nat} {s : State} (h : 255 < a) : memWrite a v s = .error (.outOfBoundsAccess .memory a) :=
  if_pos h

theorem memWrite_of_le {a v : Nat} {s : State} (h : a ≤ 255) : memWrite a v s = .ok (s.setCell a (trunc8 v)) :=
  if_neg (Nat.not_le_of_lt (Nat.lt_succ_of_le h))

/-! ### A step from written bytes -/

/-- A running core runs what the written bytes at `pc` decode to: they are read as they are and no free value is drawn. -/
theorem step_of_decode {s : State} {bytes rest : List Byte} {j : Instr} (hr : s.run = .running) (hpc : s.pc ≤ 253)
    (hb : ∀ (k : Nat) (w : Byte), bytes[k]? = some w → s.cell (s.pc + k) = some w) (h : decode bytes = .ok (j, rest)) :
    step s = exec j s := by
  obtain ⟨ir, make, ho, hj⟩ := decode_ok h
  have hir : bytes[0]? = some ir := by
    rcases hj with ⟨-, rfl, -⟩ | ⟨a, -, rfl, -⟩ | ⟨a, b, -, rfl, -⟩ <;> rfl
  refine step_of_fetch_ok hr ((fetch_of_legal hpc (memRead_of_cell (by omega) (hb 0 ir hir)) ho).trans ?_)
  rcases hj with ⟨hn, rfl, rfl⟩ | ⟨a, hn, rfl, rfl⟩ | ⟨a, b, hn, rfl, rfl⟩
  · rw [hn]
    rfl
  · rw [hn, hb 1 a rfl]
    rfl
  · rw [hn, hb 1 a rfl, hb 2 b rfl]
    rfl

/-- An illegal written byte at `pc` raises, whatever follows it (40_cycle.md R84). -/
theorem step_of_illegal {s : State} {v : Byte} (hr : s.run = .running) (hpc : s.pc ≤ 253) (hc : s.cell s.pc = some v)
    (hv : v ∉ nineOpcodes) : step s = .next (s.raise (some v) .unrecognizedOpcode) :=
  step_of_fetch_error hr (fetch_of_illegal hpc (memRead_of_cell (by omega) hc) ((opcodeMap_none_iff v).mpr hv))

/-! ### PUSH and CALL complete -/

section
variable {s : State} (hsp : s.written spIdx = true)
include hsp

theorem State.spLowered_of_written : s.spLowered = s.setReg spIdx (spBelow (s.reg spIdx)) := by
  rw [State.spLowered, State.afterRegRead_of_written hsp, State.regVal_of_written hsp]

theorem State.spLowered_regReadable {r : Fin 8} (hr : s.regReadable r) : s.spLowered.regReadable r := by
  rw [State.spLowered_of_written hsp]
  by_cases h : r = spIdx
  · subst h
    exact State.regReadable_of_written (State.setReg_written_self s spIdx _)
  · rwa [State.setReg_regReadable_other s h]

/-- A register read after the decrement: R7 gives the decremented `sp`, any other register what it gave before. -/
theorem State.spLowered_regVal (r : Fin 8) :
    s.spLowered.regVal r = if r = spIdx then spBelow (s.reg spIdx) else s.regVal r := by
  rw [State.spLowered_of_written hsp]
  split_ifs with h
  · subst h
    rw [State.regVal_of_written (State.setReg_written_self s spIdx _), State.setReg_reg_self]
  · exact State.setReg_regVal_other s h _

theorem decSp_spLowered : decSp s = .ok (spBelow (s.reg spIdx), s.spLowered) := by
  rw [decSp_of_written hsp, State.spLowered_of_written hsp]

variable {r : Fin 8} (hr : s.regReadable r)
include hr

theorem execPush_of_readable :
    execPush (regByte r) s = .next (((s.setPc (s.pc + 2)).spLowered.afterRegRead r).setCell (spBelow (s.reg spIdx)).toNat
      ((s.setPc (s.pc + 2)).spLowered.regVal r)) := by
  have hread : (s.setPc (s.pc + 2)).spLowered.regReadable r :=
    State.spLowered_regReadable (s := s.setPc (s.pc + 2)) hsp hr
  refine execute_ok (i := .push (regByte r)) ?_
  simp only [length_push, regOperand_regByte, decSp_spLowered (s := s.setPc (s.pc + 2)) hsp, readReg_of_readable hread, bind,
    Except.bind, memWrite_of_byte, trunc8_toNat, State.setPc_reg]

theorem execCall_of_readable {u : State}
    (hu : u = (s.setPc (s.pc + 2)).spLowered.setCell (spBelow (s.reg spIdx)).toNat (trunc8 (s.pc + 2))) :
    execCall (regByte r) s = .next ((u.afterRegRead r).setPc (u.regVal r).toNat) := by
  have hread : u.regReadable r := by
    rw [hu, State.setCell_regReadable]
    exact State.spLowered_regReadable (s := s.setPc (s.pc + 2)) hsp hr
  have hpc : (s.setPc (s.pc + 2)).spLowered.pc = s.pc + 2 := by simp [State.spLowered]
  refine execute_ok (i := .call (regByte r)) ?_
  simp only [length_call, regOperand_regByte, decSp_spLowered (s := s.setPc (s.pc + 2)) hsp, bind, Except.bind,
    memWrite_of_byte, State.setPc_reg, hpc, ← hu, readReg_of_readable hread, pure, Except.pure]

/-- PUSH completes, its one change to memory the store below the old `sp` (43_stack.md R120). -/
theorem exec_push_stores : ∃ t, exec (.push (regByte r)) s = .next t ∧ t.run = s.run ∧
    t.mem = s.mem.store (s.reg spIdx - 1).toNat (if r = spIdx then s.reg spIdx - 1 else s.regVal r) := by
  refine ⟨_, execPush_of_readable hsp hr, by simp [State.spLowered], ?_⟩
  rw [State.spLowered_regVal (s := s.setPc (s.pc + 2)) hsp]
  simp [State.spLowered, spBelow]

/-- CALL completes, its one change to memory the return address stored below the old `sp` (44_subroutine.md R130). -/
theorem exec_call_stores : ∃ t, exec (.call (regByte r)) s = .next t ∧ t.run = s.run ∧
    t.mem = s.mem.store (s.reg spIdx - 1).toNat (BitVec.ofNat 8 (s.pc + 2)) :=
  ⟨_, execCall_of_readable hsp hr rfl, by simp [State.spLowered], by simp [State.spLowered, spBelow, trunc8]⟩

end

end Machine

end Sys2Proof

namespace Sys2Proof.Proofs

open Sys2Proof Sys2Proof.Machine

/-- Settles O36: the storing instruction changes one cell of memory, and a fetch reads memory as it stands. -/
theorem storedByteIsReadNext : Obligations.StoredByteIsReadNext := by
  intro i r v s hsp hr hi
  obtain ⟨t, ht, hrun, hmem⟩ : ∃ t, exec i s = .next t ∧ t.run = s.run ∧
      t.mem = s.mem.store (s.reg spIdx - 1).toNat v := by
    rcases hi with ⟨rfl, rfl⟩ | ⟨rfl, rfl⟩
    · exact exec_push_stores hsp hr
    · exact exec_call_stores hsp hr
  have hcell (a : Nat) : t.cell a = if a = (s.reg spIdx - 1).toNat then some v else s.cell a := by
    rw [State.cell, hmem]
    exact Memory.cell?_store s.mem _ v a
  have hstored : t.cell (s.reg spIdx - 1).toNat = some v := (hcell _).trans (if_pos rfl)
  refine ⟨t, ht, memRead_of_cell (Nat.le_of_lt_succ (BitVec.isLt _)) hstored, ?_, ?_⟩
  · intro bytes rest j hs hpc hbytes hj
    refine step_of_decode (hrun.trans hs) hpc (fun k w hk => ?_) hj
    have hw := hbytes k w hk
    rw [hcell]
    split_ifs at hw ⊢ with ha
    · rw [hw]
    · exact hw
  · intro hs hpc ha hv
    exact step_of_illegal (hrun.trans hs) hpc (by rw [ha, hstored]) hv

/-- Settles O26: the bound, a written cell, and an unwritten one under `fault` and under `draw`. -/
theorem memReadFollowsThePolicy : Obligations.MemReadFollowsThePolicy := by
  intro addr s
  refine ⟨memRead_of_gt, fun v => memRead_of_cell, fun ha hc hu => ?_, fun ha hc hu => ?_⟩
  · exact memRead_of_unwritten (by simp [hu]) ha hc
  · rw [memRead_of_le ha, hc]
    exact useLatch_of_draw hu

/-- Settles O27: in range the write is `setCell`, which changes the one cell. -/
theorem memWriteStoresOneByte : Obligations.MemWriteStoresOneByte := by
  intro addr v s
  refine ⟨memWrite_of_gt, fun ha => ⟨_, memWrite_of_le ha, ?_, fun b hb => ?_, rfl⟩⟩
  · exact State.setCell_cell_self s addr _
  · exact State.setCell_cell_other s hb _

end Sys2Proof.Proofs
end

section
/-! PROOFS. The statements about the encoding (30_encoding.md): what the dispatcher makes of an opcode byte encodes as that byte
and its operand bytes, so the decoder and the encoder are inverse to each other, and the first byte alone gives the length. -/

namespace Sys2Proof

/-! ### Counting -/

/-- The numbers below `m * n` that satisfy `p`, counted `m` at a time. -/
theorem length_filter_range_mul (p : Nat → Bool) (m n : Nat) :
    ((List.range (m * n)).filter p).length =
      ((List.range n).map fun q => ((List.range m).filter fun k => p (m * q + k)).length).sum := by
  induction n with
  | zero => rfl
  | succ n ih =>
    rw [Nat.mul_succ, List.range_add, List.filter_append, List.length_append, ih, List.range_succ, List.map_append,
      List.sum_append, List.filter_map, List.length_map]
    rfl

/-! ### What the dispatcher makes -/

/-- The instruction made from an opcode byte is encoded as that byte and as many of the two operand bytes as its bits 7:6 say
(30_encoding.md R61, R62). -/
theorem encode_of_opcodeMap {ir : Byte} {make : Byte → Byte → Instr} (h : opcodeMap ir = some make) (a b : Byte) :
    encode (make a b) = ir :: [a, b].take (operandCount ir) := by
  have hir : ir ∈ Machine.nineOpcodes := by
    by_contra hn
    simp [(opcodeMap_none_iff ir).mpr hn] at h
  simp only [Machine.nineOpcodes, List.mem_cons, List.not_mem_nil, or_false] at hir
  rcases hir with rfl | rfl | rfl | rfl | rfl | rfl | rfl | rfl | rfl <;> cases h <;> rfl

/-- The length of the instruction made from an opcode byte (30_encoding.md R69). -/
theorem length_of_opcodeMap {ir : Byte} {make : Byte → Byte → Instr} (h : opcodeMap ir = some make) (a b : Byte) :
    (make a b).length = 1 + operandCount ir := by
  rw [Instr.length, opcodeMap_some h]

/-- No legal opcode byte asks for more than two operand bytes (30_encoding.md R61). -/
theorem operandCount_le_two {ir : Byte} {make : Byte → Byte → Instr} (h : opcodeMap ir = some make) :
    operandCount ir ≤ 2 := by
  have hlen := Machine.length_le_three (make 0 0)
  rw [length_of_opcodeMap h] at hlen
  omega

/-! ### Decoding -/

/-- A legal opcode byte and as many bytes after it as its bits 7:6 say decode to what the dispatcher makes of them, and no byte
more is taken (30_encoding.md R62, R69). -/
theorem decode_operands_append {ir : Byte} {make : Byte → Byte → Instr} {ops : List Byte} (ho : opcodeMap ir = some make)
    (hn : ops.length = operandCount ir) (rest : List Byte) :
    decode (ir :: (ops ++ rest)) = .ok (make (ops.getD 0 0) (ops.getD 1 0), rest) := by
  have h2 := operandCount_le_two ho
  simp only [decode, ho, ← hn] at h2 ⊢
  match ops with
  | [] => rfl
  | [_] => rfl
  | [_, _] => rfl
  | _ :: _ :: _ :: _ => simp at h2

/-- A legal opcode byte with fewer bytes after it is rejected for want of operand bytes (30_encoding.md R69). -/
theorem decode_of_short {ir : Byte} {make : Byte → Byte → Instr} {more : List Byte} (ho : opcodeMap ir = some make)
    (hn : more.length < operandCount ir) : decode (ir :: more) = .error (.truncated ir) := by
  simp only [decode, ho]
  split
  next hcount => simp [hcount] at hn
  next hcount => simp [hcount] at hn
  next hcount => simp [hcount] at hn
  next => rfl

/-- What the laws say of each constructor, for all instructions. -/
theorem encoding_statement (i : Instr) : Laws.Encoding.Statement i :=
  match i with
  | .ldi a b => Laws.Encoding.ldi a b
  | .prn a => Laws.Encoding.prn a
  | .hlt => Laws.Encoding.hlt
  | .mul a b => Laws.Encoding.mul a b
  | .add a b => Laws.Encoding.add a b
  | .push a => Laws.Encoding.push a
  | .pop a => Laws.Encoding.pop a
  | .call a => Laws.Encoding.call a
  | .ret => Laws.Encoding.ret

theorem decode_encode_append (i : Instr) (rest : List Byte) : decode (encode i ++ rest) = .ok (i, rest) := by
  obtain ⟨henc, hlen, hmap⟩ := encoding_statement i
  obtain ⟨make, ho, hmake⟩ := Option.map_eq_some_iff.mp hmap
  rw [henc, List.cons_append, decode_operands_append ho hlen, hmake]

theorem eq_encode_append_of_decode {bytes rest : List Byte} {i : Instr} (h : decode bytes = .ok (i, rest)) :
    bytes = encode i ++ rest := by
  obtain ⟨ir, make, ho, hj⟩ := decode_ok h
  rcases hj with ⟨hn, rfl, rfl⟩ | ⟨a, hn, rfl, rfl⟩ | ⟨a, b, hn, rfl, rfl⟩ <;> rw [encode_of_opcodeMap ho, hn] <;> rfl

/-- A legal opcode byte with bytes enough after it decodes, taking as many of them as its bits 7:6 say, to an instruction of that
length (30_encoding.md R69). -/
theorem decode_of_enough {ir : Byte} {make : Byte → Byte → Instr} {more : List Byte} (ho : opcodeMap ir = some make)
    (hn : operandCount ir ≤ more.length) :
    ∃ i, decode (ir :: more) = .ok (i, more.drop (operandCount ir)) ∧ i.length = 1 + operandCount ir := by
  have h := decode_operands_append ho (List.length_take_of_le hn) (more.drop (operandCount ir))
  rw [List.take_append_drop] at h
  exact ⟨_, h, length_of_opcodeMap ho _ _⟩

end Sys2Proof

namespace Sys2Proof.Proofs

open Sys2Proof Sys2Proof.Machine

/-- Settles O2: the encoding decodes to its instruction, and what decodes is the encoding of what it decodes to. -/
theorem decodeIsTheInverseOfEncode : Obligations.DecodeIsTheInverseOfEncode := by
  intro bytes rest i
  constructor
  · exact eq_encode_append_of_decode
  · rintro rfl
    exact decode_encode_append i rest

/-- Settles O3: an illegal written byte fails at the dispatcher; the illegal bytes are counted by bits 7:6, then added up. -/
theorem illegalOpcodesRaiseUnrecognizedOpcode : Obligations.IllegalOpcodesRaiseUnrecognizedOpcode := by
  have hquarters : (List.range 4).map (fun q =>
      ((List.range 64).filter fun k => !nineOpcodes.contains (BitVec.ofNat 8 (64 * q + k))).length) = [62, 60, 61, 64] := by
    decide
  refine ⟨fun _ _ => step_of_illegal, ?_, hquarters⟩
  have htotal := length_filter_range_mul (fun k => !nineOpcodes.contains (BitVec.ofNat 8 k)) 64 4
  rw [hquarters] at htotal
  exact htotal

/-- Settles O4: either as many bytes follow as the opcode's bits 7:6 ask for, or fewer do. -/
theorem lengthComesFromTheFirstByte : Obligations.LengthComesFromTheFirstByte := by
  intro ir more hir
  obtain ⟨make, ho⟩ := exists_opcodeMap_of_mem hir
  rcases Nat.lt_or_ge more.length (operandCount ir) with hn | hn
  · exact .inr ⟨hn, decode_of_short ho hn⟩
  · exact .inl ⟨hn, decode_of_enough ho hn⟩

/-- Settles O1: each word is the encoding of the instruction it stands for. -/
theorem opcodeMapWordsDecode : Obligations.OpcodeMapWordsDecode :=
  ⟨decode_encode_append (.ldi 3 5) [], decode_encode_append (.prn 3) [], decode_encode_append .hlt [],
    decode_encode_append (.mul 3 5) [], decode_encode_append (.add 3 5) [], decode_encode_append (.push 3) [],
    decode_encode_append (.pop 3) [], decode_encode_append (.call 3) [], decode_encode_append .ret []⟩

end Sys2Proof.Proofs
end

section
/-! PROOFS. The statements about the cycle (40_cycle.md): the bounds of the fetch, the latches that an instruction uses, and the
draw counter, which a step carries along and looks at under `draw` alone. -/

namespace Sys2Proof.Machine

/-! ### The bounds of the fetch, and `pc` after a step -/

theorem fetchBounds_of_gt {pc : Nat} (h : 255 < pc) : fetchBounds pc = .error (.outOfBoundsAccess .fetch pc) := if_pos h

theorem fetchBounds_of_last {pc : Nat} (h : pc = 254 ∨ pc = 255) :
    fetchBounds pc = .error (.outOfBoundsAccess .prefetch 256) := by
  rcases h with rfl | rfl <;> rfl

theorem execCall_pc_le {a : Byte} {s t : State} (h : execCall a s = .next t) : EffectOrStop (.call a) s t (t.pc ≤ 255) := by
  refine (execCall_cases h).imp ?_
  rintro ⟨r, s1, -, -, -, -, rfl⟩
  exact Nat.le_of_lt_succ (BitVec.isLt _)

theorem execRet_pc_le {s t : State} (h : execRet s = .next t) : EffectOrStop .ret s t (t.pc ≤ 255) := by
  refine (execRet_cases h).imp ?_
  rintro ⟨s1, -, -, ht⟩
  obtain ⟨-, rfl⟩ := incSp_ok ht
  simpa using Nat.le_of_lt_succ (BitVec.isLt _)

/-- Where an instruction leaves `pc`: advanced, at a byte, or where it was. -/
theorem exec_pc {i : Instr} {s t : State} (h : exec i s = .next t) : PcAdvancedOrByte i s t ∨ t.pc = s.pc := by
  by_cases hi : i = .hlt
  · subst hi
    rw [exec_hlt] at h
    cases h
    exact .inl (.inl (by simp))
  · rcases exec_keeps hi h with ⟨-, hpc⟩ | ⟨e, -, rfl⟩
    · exact .inl hpc
    · exact .inr rfl

/-- A step moves `pc` as the instruction it fetched does, from a `pc` of at most 253, or leaves it. -/
theorem step_pc {s t : State} (h : step s = .next t) : (s.pc ≤ 253 ∧ ∃ i, PcAdvancedOrByte i s t) ∨ t.pc = s.pc := by
  rcases step_running (step_next_running h) with ⟨i, u, hf, hstep⟩ | ⟨ir, e, -, hstep⟩
  · obtain ⟨hpc, d, -, rfl⟩ := fetch_ok hf
    exact (exec_pc (hstep.symm.trans h)).imp_left fun hp => ⟨hpc, i, hp⟩
  · rw [hstep] at h
    cases h
    exact .inr rfl

/-! ### Computations that answer the same value -/

/-- The same value, and states related by `R`. -/
def AnswerRel {α : Type} (R : State → State → Prop) (p q : α × State) : Prop := p.1 = q.1 ∧ R p.2 q.2

namespace ExceptRel

variable {ε α β : Type} {R : State → State → Prop}

/-- The first computation answers a value and a state. -/
theorem bindAnswer {S : β → β → Prop} {x y : Except ε (α × State)} {f g : α × State → Except ε β}
    (h : ExceptRel (AnswerRel R) x y) (hf : ∀ a u v, R u v → ExceptRel S (f (a, u)) (g (a, v))) :
    ExceptRel S (x >>= f) (y >>= g) := by
  refine h.bind ?_
  rintro ⟨a, u⟩ ⟨_, v⟩ ⟨rfl, huv⟩
  exact hf a u v huv

theorem map_fst_eq {x y : Except ε (α × State)} (h : ExceptRel (AnswerRel R) x y) : x.map (·.1) = y.map (·.1) := by
  cases h with
  | ok h => exact congrArg Except.ok h.1
  | error e => rfl

end ExceptRel

/-! ### Operands: the latches in use are all that a fetch sees after the opcode -/

/-- A latch that is not used does not matter (40_cycle.md R83). -/
theorem operandByte_congr {k n : Nat} {l l' : Option Byte} (h : k ≤ n → l = l') (addr : Nat) (s : State) :
    operandByte k n l addr s = operandByte k n l' addr s := by
  unfold operandByte
  split_ifs with hk
  · rw [h hk]
  · rfl

theorem fetchOperands_congr {n : Nat} {la la' lb lb' : Option Byte} (ha : 1 ≤ n → la = la') (hb : 2 ≤ n → lb = lb') (pc : Nat)
    (make : Byte → Byte → Instr) (s : State) : fetchOperands pc n la lb make s = fetchOperands pc n la' lb' make s := by
  simp only [fetchOperands, operandByte_congr ha, operandByte_congr hb]

section
variable {R : State → State → Prop}
  (hR : ∀ (u v : State), R u v → ∀ l a, ExceptRel (AnswerRel R) (useLatch l a u) (useLatch l a v))
  {s t : State} (h : R s t)
include hR h

theorem operandByte_rel (k n : Nat) (l : Option Byte) (a : Nat) :
    ExceptRel (AnswerRel R) (operandByte k n l a s) (operandByte k n l a t) := by
  unfold operandByte
  split_ifs
  · exact hR s t h l a
  · exact .ok ⟨rfl, h⟩

/-- A relation that every use of a latch keeps is kept by the fetch of the operands. -/
theorem fetchOperands_rel (pc n : Nat) (la lb : Option Byte) (make : Byte → Byte → Instr) :
    ExceptRel (AnswerRel R) (fetchOperands pc n la lb make s) (fetchOperands pc n la lb make t) :=
  .bindAnswer (operandByte_rel hR h 1 n la _) fun _ _ _ h =>
    .bindAnswer (operandByte_rel hR h 2 n lb _) fun _ _ _ h => .ok ⟨rfl, h⟩

end

/-- The second state is the first with the memory `m`. -/
def WithMem (m : Memory) (s t : State) : Prop := t = { s with mem := m }

/-- A use of a latch does not look at memory. -/
theorem useLatch_withMem {m : Memory} (s t : State) (h : WithMem m s t) (l : Option Byte) (a : Nat) :
    ExceptRel (AnswerRel (WithMem m)) (useLatch l a s) (useLatch l a t) := by
  subst h
  by_cases hr : s.latchReadable l
  · rw [useLatch_of_readable hr, useLatch_of_readable (s := { s with mem := m }) hr]
    cases l <;> exact .ok ⟨rfl, rfl⟩
  · rw [useLatch, useLatch, if_neg hr, if_neg (show ¬ State.latchReadable { s with mem := m } l from hr)]
    exact .error _

/-- What is fetched from a written opcode depends on memory through the cells in use alone (40_cycle.md R83). -/
theorem fetch_withMem {s : State} {m : Memory} {ir : Byte} (hc : s.cell s.pc = some ir)
    (hm : ∀ k, k ≤ operandCount ir → Memory.cell? m (s.pc + k) = s.cell (s.pc + k)) :
    (fetch { s with mem := m }).map (·.1) = (fetch s).map (·.1) := by
  by_cases hpc : s.pc ≤ 253
  · have hread := memRead_of_cell (show s.pc ≤ 255 by omega) hc
    have hread' : memRead s.pc { s with mem := m } = .ok (ir, { s with mem := m }) :=
      memRead_of_cell (by omega) ((hm 0 (Nat.zero_le _)).trans hc)
    cases ho : opcodeMap ir with
    | none => rw [fetch_of_illegal hpc hread ho, fetch_of_illegal (s := { s with mem := m }) hpc hread' ho]
    | some make =>
      rw [fetch_of_legal hpc hread ho, fetch_of_legal (s := { s with mem := m }) hpc hread' ho]
      refine (congrArg (fun x => (withIr (some ir) x).map (·.1)) (fetchOperands_congr (hm 1) (hm 2) _ make _)).trans ?_
      exact ((fetchOperands_rel useLatch_withMem rfl _ _ _ _ make).withIr (some ir)).map_fst_eq.symm
  · obtain ⟨e, hb, -⟩ := fetchBounds_error (Nat.lt_of_not_le hpc)
    rw [fetch_of_bounds_error hb, fetch_of_bounds_error (s := { s with mem := m }) hb]

/-! ### Operands: what a step makes of the latches in use -/

section
variable {s : State} {ir : Byte} {make : Byte → Byte → Instr} (hr : s.run = .running) (hpc : s.pc ≤ 253)
  (hc : s.cell s.pc = some ir) (ho : opcodeMap ir = some make)
include hr hpc hc ho

/-- Written latches in use are the operands (40_cycle.md R85): the cells hold the encoding of the instruction. -/
theorem step_of_written_operands {a b : Byte} (ha : 1 ≤ operandCount ir → s.cell (s.pc + 1) = some a)
    (hb : 2 ≤ operandCount ir → s.cell (s.pc + 2) = some b) : step s = exec (make a b) s := by
  have hdec : decode (encode (make a b)) = .ok (make a b, []) := by
    simpa using decode_encode_append (make a b) []
  refine step_of_decode hr hpc (fun k w hk => ?_) hdec
  rw [encode_of_opcodeMap ho] at hk
  match k with
  | 0 => exact hc.trans hk
  | 1 =>
    obtain ⟨hn, rfl⟩ : 0 < operandCount ir ∧ a = w := by simpa [List.getElem?_take] using hk
    exact ha hn
  | 2 =>
    obtain ⟨hn, rfl⟩ : 1 < operandCount ir ∧ b = w := by simpa [List.getElem?_take] using hk
    exact hb hn
  | k + 3 => simp at hk

theorem step_of_fetchOperands_error {e : ErrKind}
    (hf : fetchOperands s.pc (operandCount ir) (s.cell (s.pc + 1)) (s.cell (s.pc + 2)) make s = .error e) :
    step s = .next (s.raise (some ir) e) := by
  refine step_of_fetch_error hr ?_
  rw [fetch_of_legal hpc (memRead_of_cell (by omega) hc) ho, hf]
  rfl

theorem step_of_unwritten_a (hu : s.uninit ≠ .draw) (hn : 1 ≤ operandCount ir) (ha : s.cell (s.pc + 1) = none) :
    step s = .next (s.raise (some ir) (.uninitialisedRead .memory (s.pc + 1))) :=
  step_of_fetchOperands_error hr hpc hc ho (ha ▸ fetchOperands_of_unwritten_a hu hn)

theorem step_of_unwritten_b (hu : s.uninit ≠ .draw) (hn : 2 ≤ operandCount ir) (ha : s.cell (s.pc + 1) ≠ none)
    (hb : s.cell (s.pc + 2) = none) :
    step s = .next (s.raise (some ir) (.uninitialisedRead .memory (s.pc + 2))) := by
  obtain ⟨a, ha⟩ := Option.ne_none_iff_exists'.mp ha
  refine step_of_fetchOperands_error hr hpc hc ho ?_
  rw [ha, hb]
  exact fetchOperands_of_unwritten_b hu hn a

/-- Under `draw` a legal written opcode always runs, on the latches and the free values in their place. -/
theorem step_of_draw (hu : s.uninit = .draw) :
    ∃ (a b : Byte) (d : Nat), step s = exec (make a b) { s with draws := d } ∧
      (1 ≤ operandCount ir → a = (s.cell (s.pc + 1)).getD (Config.drawByte s.draws)) ∧
      (2 ≤ operandCount ir → b = (s.cell (s.pc + 2)).getD
        (Config.drawByte (if (s.cell (s.pc + 1)).isSome then s.draws else s.draws + 1))) := by
  obtain ⟨a, b, d, hf, ha, hb⟩ := fetchOperands_of_draw (pc := s.pc) (n := operandCount ir) (la := s.cell (s.pc + 1))
    (lb := s.cell (s.pc + 2)) (make := make) hu
  refine ⟨a, b, d, step_of_fetch_ok hr ?_, ha, hb⟩
  rw [fetch_of_legal hpc (memRead_of_cell (by omega) hc) ho, hf]
  rfl

end

/-! ### The draw counter

Two runs whose states differ in the draw counter alone stay so, and their counters move by the same amount. With the two counters
the same, this says how the counter of one run moves; with a policy other than `draw`, that it does not matter. -/

/-- `t` is `s` but for the draw counter. Both counters have moved by the same amount since they stood at `d` and `n`, which differ
at most under a policy other than `draw`, where neither moves. -/
structure DrawsApart (p : UninitPolicy) (d n : Nat) (s t : State) : Prop where
  same : t = { s with draws := t.draws }
  uninit : s.uninit = p
  start : p = .draw → d = n
  moved : ∃ k, s.draws = d + k ∧ t.draws = n + k ∧ (p ≠ .draw → k = 0)

namespace DrawsApart

variable {p : UninitPolicy} {d n : Nat} {s t : State}

/-- Two states that differ in the draw counter alone, at most under a policy other than `draw`. -/
theorem withDraws (s : State) {n : Nat} (h : s.uninit = .draw → s.draws = n) :
    DrawsApart s.uninit s.draws n s { s with draws := n } :=
  ⟨rfl, rfl, h, 0, rfl, rfl, fun _ => rfl⟩

section
variable (h : DrawsApart p d n s t)
include h

theorem pc : t.pc = s.pc := by rw [h.same]

theorem run : t.run = s.run := by rw [h.same]

theorem uninit_eq : t.uninit = s.uninit := by rw [h.same]

theorem reg (i : Fin 8) : t.reg i = s.reg i := State.reg_congr s (by rw [h.same]) i

theorem written (i : Fin 8) : t.written i = s.written i := State.written_congr s (by rw [h.same]) i

theorem cell (a : Nat) : t.cell a = s.cell a := State.cell_congr s (by rw [h.same]) a

theorem draws_eq (hu : s.uninit = .draw) : t.draws = s.draws := by
  obtain ⟨k, hs, ht, -⟩ := h.moved
  rw [hs, ht, h.start (h.uninit.symm.trans hu)]

/-- A write that neither looks at the draw counter nor moves it, and leaves the policy. -/
theorem write {f : State → State} (hf : ∀ m, f { s with draws := m } = { f s with draws := m })
    (hu : (f s).uninit = s.uninit) (hd : (f s).draws = s.draws) : DrawsApart p d n (f s) (f t) := by
  have ht : f t = { f s with draws := t.draws } := (congrArg f h.same).trans (hf _)
  have htd : (f t).draws = t.draws := by rw [ht]
  refine ⟨by rw [htd, ht], hu.trans h.uninit, h.start, ?_⟩
  rw [hd, htd]
  exact h.moved

theorem setReg (i : Fin 8) (v : Byte) : DrawsApart p d n (s.setReg i v) (t.setReg i v) :=
  h.write (f := (·.setReg i v)) (fun _ => rfl) rfl rfl

theorem setPc (m : Nat) : DrawsApart p d n (s.setPc m) (t.setPc m) := h.write (f := (·.setPc m)) (fun _ => rfl) rfl rfl

theorem emit (v : Byte) : DrawsApart p d n (s.emit v) (t.emit v) := h.write (f := (·.emit v)) (fun _ => rfl) rfl rfl

theorem halt : DrawsApart p d n s.halt t.halt := h.write (f := (·.halt)) (fun _ => rfl) rfl rfl

theorem setCell (a : Nat) (v : Byte) : DrawsApart p d n (s.setCell a v) (t.setCell a v) :=
  h.write (f := (·.setCell a v)) (fun _ => rfl) rfl rfl

theorem raise (ir : Option Byte) (e : ErrKind) : DrawsApart p d n (s.raise ir e) (t.raise ir e) :=
  h.write (f := (·.raise ir e)) (fun _ => rfl) rfl rfl

theorem afterDraw (hu : s.uninit = .draw) : DrawsApart p d n s.afterDraw t.afterDraw where
  same := by
    rw [h.same]
    rfl
  uninit := h.uninit
  start := h.start
  moved := by
    obtain ⟨k, hs, ht, -⟩ := h.moved
    exact ⟨k + 1, congrArg (· + 1) hs, congrArg (· + 1) ht, fun hp => absurd (h.uninit.symm.trans hu) hp⟩

end

end DrawsApart

section
variable {p : UninitPolicy} {d n : Nat}

/-- The key fact: a register read looks at the draw counter under `draw` alone. -/
theorem readReg_drawsApart {s t : State} (h : DrawsApart p d n s t) (i : Fin 8) :
    ExceptRel (AnswerRel (DrawsApart p d n)) (readReg i s) (readReg i t) := by
  cases hw : s.written i with
  | true =>
    rw [readReg_of_written hw, readReg_of_written ((h.written i).trans hw)]
    exact .ok ⟨(h.reg i).symm, h⟩
  | false =>
    have hw' : t.written i = false := (h.written i).trans hw
    cases hu : s.uninit with
    | fault =>
      rw [readReg_of_unreadable hw hu, readReg_of_unreadable hw' (h.uninit_eq.trans hu)]
      exact .error _
    | draw =>
      rw [readReg_of_draw hw hu, readReg_of_draw hw' (h.uninit_eq.trans hu)]
      exact .ok ⟨congrArg Config.drawByte (h.draws_eq hu).symm, h.afterDraw hu⟩
    | hold =>
      rw [readReg_of_hold hu, readReg_of_hold (h.uninit_eq.trans hu)]
      exact .ok ⟨(h.reg i).symm, h⟩

/-- A use of a latch looks at the draw counter under `draw` alone. -/
theorem useLatch_drawsApart (s t : State) (h : DrawsApart p d n s t) (l : Option Byte) (a : Nat) :
    ExceptRel (AnswerRel (DrawsApart p d n)) (useLatch l a s) (useLatch l a t) := by
  cases l with
  | some v =>
    rw [useLatch_some, useLatch_some]
    exact .ok ⟨rfl, h⟩
  | none =>
    by_cases hu : s.uninit = .draw
    · rw [useLatch_of_readable (State.latchReadable_iff.mpr (.inr hu)),
        useLatch_of_readable (State.latchReadable_iff.mpr (.inr (h.uninit_eq.trans hu)))]
      exact .ok ⟨congrArg Config.drawByte (h.draws_eq hu).symm, h.afterDraw hu⟩
    · rw [useLatch_of_unreadable hu, useLatch_of_unreadable (h.uninit_eq ▸ hu)]
      exact .error _

variable {s t : State} (h : DrawsApart p d n s t)
include h

theorem memRead_drawsApart (a : Nat) : ExceptRel (AnswerRel (DrawsApart p d n)) (memRead a s) (memRead a t) := by
  unfold memRead
  split_ifs
  · exact .error _
  · rw [h.cell]
    exact useLatch_drawsApart s t h _ a

theorem memWrite_drawsApart (a : Nat) {v w : Nat} (hv : v = w) :
    ExceptRel (DrawsApart p d n) (memWrite a v s) (memWrite a w t) := by
  subst hv
  unfold memWrite
  split_ifs
  · exact .error _
  · exact .ok (h.setCell a _)

theorem decSp_drawsApart : ExceptRel (AnswerRel (DrawsApart p d n)) (decSp s) (decSp t) :=
  .bindAnswer (readReg_drawsApart h spIdx) fun _ _ _ h => .ok ⟨rfl, h.setReg spIdx _⟩

theorem incSp_drawsApart : ExceptRel (DrawsApart p d n) (incSp s) (incSp t) :=
  .bindAnswer (readReg_drawsApart h spIdx) fun _ _ _ h => .ok (h.setReg spIdx _)

theorem fetch_drawsApart : ExceptRel (AnswerRel (DrawsApart p d n)) (fetch s) (fetch t) := by
  unfold fetch
  rw [h.pc, h.cell, h.cell]
  refine .bind_same _ fun _ => .bindAnswer ((memRead_drawsApart h s.pc).withIr none) fun ir u v huv => ?_
  cases ho : opcodeMap ir with
  | none => simp only [ho]; exact .error _
  | some make =>
    simp only [ho]
    exact (fetchOperands_rel useLatch_drawsApart huv _ _ _ _ make).withIr (some ir)

theorem aluRegs_drawsApart (op : AluOp) (a b : Byte) : ExceptRel (DrawsApart p d n) (aluRegs op a b s) (aluRegs op a b t) :=
  .bind_same _ fun ra => .bind_same _ fun rb => .bindAnswer (readReg_drawsApart h ra) fun _ _ _ h =>
    .bindAnswer (readReg_drawsApart h rb) fun _ _ _ h => .ok (h.setReg ra _)

/-- An instruction does to the draw counter what its body does; its error stop leaves it. -/
theorem execute_drawsApart (i : Instr) {body : State → Except ErrKind State}
    (hb : ∀ u v, DrawsApart p d n u v → ExceptRel (DrawsApart p d n) (body u) (body v)) :
    OutcomeRel (DrawsApart p d n) (execute i s body) (execute i t body) := by
  have hbody := hb _ _ (h.setPc (s.pc + i.length))
  unfold execute
  rw [h.pc]
  generalize body (s.setPc _) = x, body (t.setPc _) = y at hbody
  cases hbody with
  | ok h' => exact h'
  | error e => exact h.raise _ e

theorem execPrn_drawsApart (a : Byte) : OutcomeRel (DrawsApart p d n) (execPrn a s) (execPrn a t) := by
  refine execute_drawsApart h _ fun _ _ h => .bind_same _ fun ra => ?_
  exact .bindAnswer (readReg_drawsApart h ra) fun v _ _ h => .ok (h.emit v)

theorem execPush_drawsApart (a : Byte) : OutcomeRel (DrawsApart p d n) (execPush a s) (execPush a t) := by
  refine execute_drawsApart h _ fun _ _ h => .bind_same _ fun ra => ?_
  refine .bindAnswer (decSp_drawsApart h) fun sp _ _ h => ?_
  exact .bindAnswer (readReg_drawsApart h ra) fun v _ _ h => memWrite_drawsApart h sp.toNat rfl

theorem execPop_drawsApart (a : Byte) : OutcomeRel (DrawsApart p d n) (execPop a s) (execPop a t) := by
  refine execute_drawsApart h _ fun _ _ h => .bind_same _ fun ra => ?_
  refine .bindAnswer (readReg_drawsApart h spIdx) fun sp _ _ h => ?_
  exact .bindAnswer (memRead_drawsApart h sp.toNat) fun v _ _ h => incSp_drawsApart (h.setReg ra v)

theorem execCall_drawsApart (a : Byte) : OutcomeRel (DrawsApart p d n) (execCall a s) (execCall a t) := by
  refine execute_drawsApart h _ fun _ _ h => .bind_same _ fun ra => ?_
  refine .bindAnswer (decSp_drawsApart h) fun sp _ _ h => ?_
  refine ExceptRel.bind (memWrite_drawsApart h sp.toNat h.pc.symm) fun _ _ h => ?_
  exact .bindAnswer (readReg_drawsApart h ra) fun target _ _ h => .ok (h.setPc target.toNat)

theorem execRet_drawsApart : OutcomeRel (DrawsApart p d n) (execRet s) (execRet t) := by
  refine execute_drawsApart h _ fun _ _ h => .bindAnswer (readReg_drawsApart h spIdx) fun sp _ _ h => ?_
  exact .bindAnswer (memRead_drawsApart h sp.toNat) fun v _ _ h => incSp_drawsApart (h.setPc v.toNat)

theorem exec_drawsApart (i : Instr) : OutcomeRel (DrawsApart p d n) (exec i s) (exec i t) := by
  cases i with
  | ldi a b => exact execute_drawsApart h _ fun _ _ h => .bind_same _ fun ra => .ok (h.setReg ra _)
  | prn a => exact execPrn_drawsApart h a
  | hlt => exact execute_drawsApart h .hlt fun _ _ h => .ok h.halt
  | mul a b => exact execute_drawsApart h _ fun _ _ h => aluRegs_drawsApart h .mul a b
  | add a b => exact execute_drawsApart h _ fun _ _ h => aluRegs_drawsApart h .add a b
  | push a => exact execPush_drawsApart h a
  | pop a => exact execPop_drawsApart h a
  | call a => exact execCall_drawsApart h a
  | ret => exact execRet_drawsApart h

theorem step_drawsApart : OutcomeRel (DrawsApart p d n) (step s) (step t) := by
  have hf := fetch_drawsApart h
  unfold step
  rw [h.run]
  cases s.run with
  | halted => exact rfl
  | faulted => exact rfl
  | running =>
    generalize fetch s = x, fetch t = y at hf
    cases hf with
    | @ok a b h' =>
      obtain ⟨i, u⟩ := a
      obtain ⟨_, v⟩ := b
      obtain ⟨rfl, huv⟩ := h'
      exact exec_drawsApart huv i
    | error e => exact h.raise e.1 e.2

end

theorem OutcomeRel.imp {R S : State → State → Prop} (hRS : ∀ s t, R s t → S s t) {x y : Host.Outcome State Fault Refusal}
    (h : OutcomeRel R x y) : OutcomeRel S x y := by
  cases x <;> cases y
  case next.next s t => exact hRS s t h
  all_goals exact h

/-- A step leaves the policy, and the draw counter never goes back: the step compared with itself. -/
theorem step_uninit_draws {s t : State} (h : step s = .next t) : t.uninit = s.uninit ∧ s.draws ≤ t.draws := by
  have hstep := step_drawsApart (DrawsApart.withDraws s (n := s.draws) fun _ => rfl)
  rw [h] at hstep
  obtain ⟨-, hu, -, k, hk, -⟩ : DrawsApart s.uninit s.draws s.draws t t := hstep
  exact ⟨hu, by omega⟩

end Sys2Proof.Machine

namespace Sys2Proof.Proofs

open Sys2Proof Sys2Proof.Machine

/-- Settles O7: the fetch checks its bound first; a step that moves `pc` advances it by at most 3 from at most 253, or puts a byte
there. -/
theorem fetchAboveMemoryRaises : Obligations.FetchAboveMemoryRaises := by
  refine ⟨fun s hr hpc => ?_, fun s t h hs ht => ?_, fun s t a h => ?_, fun s t h => ?_⟩
  · exact step_of_fetch_error hr (fetch_of_bounds_error (fetchBounds_of_gt hpc))
  · rcases step_pc h with ⟨hpc, i, hadv | hbyte⟩ | hkept
    · have hlen := length_le_three i
      omega
    · omega
    · omega
  · exact (execCall_pc_le h).imp_right fun ⟨e, _, he⟩ => ⟨e, he⟩
  · exact (execRet_pc_le h).imp_right fun ⟨e, _, he⟩ => ⟨e, he⟩

/-- Settles O8: the prefetch's bound is checked before memory is read. -/
theorem prefetchAboveMemoryRaises : Obligations.PrefetchAboveMemoryRaises :=
  fun _ hr hpc => step_of_fetch_error hr (fetch_of_bounds_error (fetchBounds_of_last hpc))

/-- Settles O9: the opcode cell is read first, then the latches in use alone; a HLT uses none. -/
theorem onlyUsedLatchesMatter : Obligations.OnlyUsedLatchesMatter := by
  refine ⟨fun s hr hpc hu hc => ?_, fun s m ir hc hm => fetch_withMem hc hm, fun s hr hpc hc => ?_⟩
  · exact step_of_fetch_error hr (fetch_of_opcode_error hpc (memRead_of_unwritten (by simp [hu]) (by omega) hc))
  · rw [step_of_written_operands (a := 0) (b := 0) hr hpc hc rfl nofun nofun]
    exact exec_hlt s

/-- Settles O10: one clause per state of the latches in use and policy. -/
theorem usedOperandsFollowThePolicy : Obligations.UsedOperandsFollowThePolicy := by
  intro s ir make hr hpc hc ho
  have two_of_le (hn : 2 ≤ operandCount ir) : ir.toNat / 64 = 2 := Nat.le_antisymm (operandCount_le_two ho) hn
  refine ⟨fun a b ha hb => ?_, fun hu hn ha => ?_, fun hu hn ha hb => ?_, fun hu => ?_⟩
  · exact step_of_written_operands hr hpc hc ho ha fun hn => hb (two_of_le hn)
  · exact step_of_unwritten_a hr hpc hc ho (by simp [hu]) hn ha
  · exact step_of_unwritten_b hr hpc hc ho (by simp [hu]) hn.ge ha hb
  · obtain ⟨a, b, d, hstep, ha, hb⟩ := step_of_draw hr hpc hc ho hu
    exact ⟨a, b, d, hstep, ha, fun hn => hb hn.ge⟩

/-- Settles O44: states that are `DrawsApart` step to such states, and under a policy other than `draw` no counter moves. -/
theorem freeValuesEnterUnderDrawAlone : Obligations.FreeValuesEnterUnderDrawAlone := by
  refine ⟨fun s n hu => ?_, fun _ _ => step_uninit_draws⟩
  refine (step_drawsApart (DrawsApart.withDraws s (n := n) fun h => absurd h hu)).imp ?_
  rintro t u ⟨hsame, -, -, k, ht, hn, hk⟩
  obtain rfl := hk hu
  exact ⟨ht, by rw [hsame, hn, Nat.add_zero]⟩

/-- Settles O5: written bytes are fetched as the decoder reads them. -/
theorem stepRunsTheDecodedInstruction : Obligations.StepRunsTheDecodedInstruction :=
  fun _ _ _ _ => step_of_decode

/-- Settles O6: `step` looks at the run state first. -/
theorem stoppedCoreTakesNoStep : Obligations.StoppedCoreTakesNoStep := by
  refine ⟨fun s h => ?_, fun s h => ?_, fun _ _ => step_next_running⟩
  · simp only [step, h]
  · simp only [step, h]

end Sys2Proof.Proofs
end

section
/-! PROOFS. The statements about data movement (41_data_movement.md): what LDI answers for a register it names and for a byte
that names none, and the frame of the instructions that write one register. -/

namespace Sys2Proof.Machine

/-! ### A first operand that names no register -/

/-- An instruction whose body looks at its register operand `a` first stops there when `a` names no register. -/
theorem execute_of_not_register {i : Instr} {a : Byte} {s : State} {f : State → Fin 8 → Except ErrKind State}
    (h : 7 < a.toNat) :
    execute i s (fun u => regOperand a >>= f u) =
      .next (s.raise (some i.opcode) (.outOfBoundsAccess .register a.toNat)) := by
  refine execute_error ?_
  rw [regOperand_error h]
  rfl

/-! ### LDI -/

theorem execLdi_regByte (r : Fin 8) (b : Byte) (s : State) :
    execLdi (regByte r) b s = .next ((s.setPc (s.pc + 3)).setReg r b) := by
  refine execute_ok (i := .ldi (regByte r) b) ?_
  rw [length_ldi, regOperand_regByte]
  rfl

theorem execLdi_of_not_register {a : Byte} (b : Byte) (s : State) (h : 7 < a.toNat) :
    execLdi a b s = .next (s.raise (some 0x82) (.outOfBoundsAccess .register a.toNat)) :=
  execute_of_not_register h

theorem readReg_setReg_self (i : Fin 8) (v : Byte) (s : State) : readReg i (s.setReg i v) = .ok (v, s.setReg i v) := by
  rw [readReg_of_written (State.setReg_written_self s i v), State.setReg_reg_self]

/-! ### Frames -/

/-- Nothing differs from `s` to `t` but `pc`, the draw counter, the run state, the error record, the registers in `R` and the
cells in `M`. -/
structure Frame (R : Fin 8 → Prop) (M : Nat → Prop) (s t : State) : Prop where
  regs : SameRegs s t R
  mem : SameMem s t M
  out : t.out = s.out
  uninit : t.uninit = s.uninit

namespace Frame

variable {R : Fin 8 → Prop} {M : Nat → Prop} {s t : State}

theorem refl (s : State) : Frame R M s s := ⟨fun _ _ => ⟨rfl, rfl⟩, fun _ _ => rfl, rfl, rfl⟩

theorem setPc (h : Frame R M s t) (n : Nat) : Frame R M s (t.setPc n) := ⟨h.regs, h.mem, h.out, h.uninit⟩

theorem setReg (h : Frame R M s t) {i : Fin 8} (hi : R i) (v : Byte) : Frame R M s (t.setReg i v) where
  regs r hr := by
    have hne : r ≠ i := fun hri => hr (hri ▸ hi)
    rw [State.setReg_reg_other t hne, State.setReg_written_other t hne]
    exact h.regs r hr
  mem := h.mem
  out := h.out
  uninit := h.uninit

theorem afterDraw (h : Frame R M s t) : Frame R M s t.afterDraw := ⟨h.regs, h.mem, h.out, h.uninit⟩

theorem afterRegRead (h : Frame R M s t) (r : Fin 8) : Frame R M s (t.afterRegRead r) := by
  rcases t.afterRegRead_cases r with e | ⟨-, e⟩ <;> rw [e]
  exacts [h, h.afterDraw]

theorem raise (h : Frame R M s t) (ir : Option Byte) (e : ErrKind) : Frame R M s (t.raise ir e) :=
  ⟨h.regs, h.mem, h.out, h.uninit⟩

theorem aluRegs {op : AluOp} {a b : Byte} {u : State} (h : Frame (fun r => r.val = a.toNat) M s t)
    (hu : aluRegs op a b t = .ok u) : Frame (fun r => r.val = a.toNat) M s u := by
  obtain ⟨ra, rb, ha, -, -, -, rfl⟩ := aluRegs_ok hu
  exact ((h.afterRegRead ra).afterRegRead rb).setReg (regOperand_ok ha) _

end Frame

/-- The error stop keeps every frame, so an instruction's frame is that of its own effect. -/
theorem EffectOrStop.frame {R : Fin 8 → Prop} {M : Nat → Prop} {i : Instr} {s t : State} {own : Prop}
    (h : EffectOrStop i s t own) (hown : own → Frame R M s t) : Frame R M s t := by
  rcases h with h | ⟨e, -, rfl⟩
  · exact hown h
  · exact (Frame.refl s).raise _ e

theorem exec_goesOnOrStops {i : Instr} {s t : State} (hi : i ≠ .hlt) (h : exec i s = .next t) : GoesOnOrStops i s t := by
  rcases exec_keeps hi h with ⟨hk, -⟩ | ⟨e, -, he⟩
  · exact .inl ⟨hk.run, hk.err⟩
  · exact .inr ⟨e, he⟩

/-- LDI, ADD and MUL write the register that `a` names and no other. -/
theorem exec_register_frame {a b : Byte} {i : Instr} {s t : State} (hi : i = .ldi a b ∨ i = .add a b ∨ i = .mul a b)
    (h : exec i s = .next t) : Frame (fun r => r.val = a.toNat) (fun _ => False) s t := by
  rcases hi with rfl | rfl | rfl
  · refine (execLdi_cases h).frame ?_
    rintro ⟨r, hr, rfl⟩
    exact ((Frame.refl s).setPc _).setReg (regOperand_ok hr) b
  · exact (execAdd_cases h).frame ((Frame.refl s).setPc _).aluRegs
  · exact (execMul_cases h).frame ((Frame.refl s).setPc _).aluRegs

end Sys2Proof.Machine

namespace Sys2Proof.Proofs

open Sys2Proof Sys2Proof.Machine

/-- Settles O12: LDI is one register write after the advance of `pc`, and a read of the register just written gives its value. -/
theorem ldiLoadsTheImmediate : Obligations.LdiLoadsTheImmediate :=
  ⟨fun _ _ => rfl, fun r b s => ⟨_, execLdi_regByte r b s, rfl, readReg_setReg_self r b _⟩,
    fun _ b s => execLdi_of_not_register b s⟩

/-- Settles O21: the one register written is the one that `a` names. -/
theorem registerInstructionsKeepTheRest : Obligations.RegisterInstructionsKeepTheRest := by
  intro a b i hi s t h
  have hf := exec_register_frame hi h
  have hne : i ≠ .hlt := by rcases hi with rfl | rfl | rfl <;> nofun
  exact ⟨hf.regs, hf.mem, hf.out, hf.uninit, exec_goesOnOrStops hne h⟩

end Sys2Proof.Proofs
end

section
/-! PROOFS. The statements about arithmetic (42_arithmetic.md): the unit's result, then what the body ADD and MUL share makes of
a state, once for both operations. -/

namespace Sys2Proof.Machine

theorem alu_toNat (op : AluOp) (va vb : Byte) : (alu op va vb).toNat = aluExact op va.toNat vb.toNat % 256 :=
  BitVec.toNat_ofNat _ _

/-! ### The shared body, branch by branch, in the order of its checks -/

section
variable (op : AluOp) {ra rb : Fin 8} {s : State}

theorem aluRegs_of_readable (ha : s.regReadable ra) (hb : s.regReadable rb) :
    aluRegs op (regByte ra) (regByte rb) s = .ok (((s.afterRegRead ra).afterRegRead rb).setReg ra
      (alu op (s.regVal ra) ((s.afterRegRead ra).regVal rb))) := by
  have hb' : (s.afterRegRead ra).regReadable rb := by rwa [State.afterRegRead_regReadable]
  simp only [aluRegs, regOperand_regByte, readReg_of_readable ha, readReg_of_readable hb', bind, Except.bind, pure,
    Except.pure]

theorem aluRegs_of_not_register_left {a : Byte} (b : Byte) (h : 7 < a.toNat) :
    aluRegs op a b s = .error (.outOfBoundsAccess .register a.toNat) := by
  simp only [aluRegs, regOperand_error h, bind, Except.bind]

theorem aluRegs_of_not_register_right {b : Byte} (h : 7 < b.toNat) :
    aluRegs op (regByte ra) b s = .error (.outOfBoundsAccess .register b.toNat) := by
  simp only [aluRegs, regOperand_regByte, regOperand_error h, bind, Except.bind]

theorem aluRegs_of_unwritten_left (hu : s.uninit = .fault) (ha : s.written ra = false) :
    aluRegs op (regByte ra) (regByte rb) s = .error (.uninitialisedRead .register ra.val) := by
  simp only [aluRegs, regOperand_regByte, readReg_of_unreadable ha hu, bind, Except.bind]

theorem aluRegs_of_unwritten_right (hu : s.uninit = .fault) (ha : s.written ra = true) (hb : s.written rb = false) :
    aluRegs op (regByte ra) (regByte rb) s = .error (.uninitialisedRead .register rb.val) := by
  simp only [aluRegs, regOperand_regByte, readReg_of_written ha, readReg_of_unreadable hb hu, bind, Except.bind]

/-- An instruction of three bytes with this body completes. Its reads are stated of the state before the advance of `pc`, which
changes neither what they give nor what they draw. -/
theorem execute_aluRegs_of_readable {i : Instr} (hi : i.length = 3) (ha : s.regReadable ra) (hb : s.regReadable rb) :
    execute i s (aluRegs op (regByte ra) (regByte rb)) = .next { (s.afterRegRead ra).afterRegRead rb with
      regs := s.regs.set ra (alu op (s.regVal ra) ((s.afterRegRead ra).regVal rb)),
      regWritten := s.regWritten.set ra true, pc := s.pc + 3 } := by
  refine execute_ok ?_
  rw [hi, aluRegs_of_readable op (s := s.setPc (s.pc + 3)) ha hb]
  simp only [State.afterRegRead_setPc, State.setPc_regVal]
  simp [State.setReg, State.setPc]

end

end Sys2Proof.Machine

namespace Sys2Proof.Proofs

open Sys2Proof Sys2Proof.Machine

/-- Settles O13: the error stop of ADD is that of the first check of the shared body that fails. -/
theorem addWritesTheSumModulo256 : Obligations.AddWritesTheSumModulo256 :=
  ⟨fun _ _ => rfl,
    fun ra rb _ => execute_aluRegs_of_readable .add (length_add (regByte ra) (regByte rb)),
    fun _ b _ h => execute_error (aluRegs_of_not_register_left .add b h),
    fun _ _ _ h => execute_error (aluRegs_of_not_register_right .add h),
    fun _ _ _ hu ha => execute_error (aluRegs_of_unwritten_left .add hu ha),
    fun _ _ _ hu ha hb => execute_error (aluRegs_of_unwritten_right .add hu ha hb)⟩

/-- Settles O14, from the same lemmas about the shared body as ADD. -/
theorem mulWritesTheProductModulo256 : Obligations.MulWritesTheProductModulo256 :=
  ⟨fun _ _ => rfl,
    fun ra rb _ => execute_aluRegs_of_readable .mul (length_mul (regByte ra) (regByte rb)),
    fun _ b _ h => execute_error (aluRegs_of_not_register_left .mul b h),
    fun _ _ _ h => execute_error (aluRegs_of_not_register_right .mul h),
    fun _ _ _ hu ha => execute_error (aluRegs_of_unwritten_left .mul hu ha),
    fun _ _ _ hu ha hb => execute_error (aluRegs_of_unwritten_right .mul hu ha hb)⟩

/-- Settles O29: truncation to eight bits is the remainder modulo 256. -/
theorem arithmeticIsModulo256 : Obligations.ArithmeticIsModulo256 :=
  fun va vb => ⟨alu_toNat .add va vb, alu_toNat .mul va vb⟩

end Sys2Proof.Proofs
end

section
/-! PROOFS. The statements about the stack (43_stack.md): what PUSH and POP answer, the frames of the instructions that store
below `sp` and that pop, and that a POP undoes the PUSH before it. -/

namespace Sys2Proof.Machine

/-! ### PUSH -/

theorem execPush_of_not_register {a : Byte} (s : State) (h : 7 < a.toNat) :
    execPush a s = .next (s.raise (some 0x45) (.outOfBoundsAccess .register a.toNat)) :=
  execute_of_not_register h

section
variable {r : Fin 8} {s : State} (hsp : s.written spIdx = true)
include hsp

/-- The decrement of `sp` changes nothing in a read of another register, neither its value nor its draw. -/
theorem execPush_of_readable_other (hr : s.regReadable r) (hne : r ≠ spIdx) :
    execPush (regByte r) s = .next ((((s.afterRegRead r).setPc (s.pc + 2)).setReg spIdx (spBelow (s.reg spIdx))).setCell
      (spBelow (s.reg spIdx)).toNat (s.regVal r)) := by
  rw [execPush_of_readable hsp hr, State.spLowered_of_written (s := s.setPc (s.pc + 2)) hsp, State.setPc_reg,
    State.afterRegRead_setReg_other _ hne, State.afterRegRead_setPc, State.setReg_regVal_other _ hne, State.setPc_regVal]

/-- A written register is read as it stands after the decrement, which is where R7 differs from the others; nothing is
drawn. -/
theorem execPush_of_written {u : State} (hu : u = (s.setPc (s.pc + 2)).setReg spIdx (spBelow (s.reg spIdx)))
    (hr : s.written r = true) :
    execPush (regByte r) s = .next (u.setCell (u.reg spIdx).toNat (u.reg r)) := by
  have hw : u.written r = true := hu ▸ (((Keeps.refl s).setPc _).setReg spIdx _).written r hr
  have hlow : (s.setPc (s.pc + 2)).spLowered = u := (State.spLowered_of_written (s := s.setPc (s.pc + 2)) hsp).trans hu.symm
  rw [execPush_of_readable hsp (State.regReadable_of_written hr), hlow, State.afterRegRead_of_written hw,
    State.regVal_of_written hw, hu, State.setReg_reg_self]

theorem execPush_of_unwritten (hu : s.uninit = .fault) (hr : s.written r = false) :
    execPush (regByte r) s = .next (s.raise (some 0x45) (.uninitialisedRead .register r.val)) := by
  have hne : r ≠ spIdx := by
    rintro rfl
    simp [hsp] at hr
  have hdec := decSp_of_written (s := s.setPc (s.pc + 2)) hsp
  have hread : readReg r ((s.setPc (s.pc + 2)).setReg spIdx (spBelow (s.reg spIdx))) =
      .error (.uninitialisedRead .register r.val) :=
    readReg_of_unreadable ((State.setReg_written_other _ hne _).trans hr) hu
  refine execute_error (i := .push (regByte r)) ?_
  simp only [length_push, regOperand_regByte, hdec, State.setPc_reg, hread, bind, Except.bind]

end

/-! ### POP -/

theorem execPop_of_not_register {a : Byte} (s : State) (h : 7 < a.toNat) :
    execPop a s = .next (s.raise (some 0x46) (.outOfBoundsAccess .register a.toNat)) :=
  execute_of_not_register h

theorem memRead_of_readable {a : Byte} {s : State} (h : s.latchReadable (s.cell a.toNat)) :
    memRead a.toNat s = .ok (s.latchVal (s.cell a.toNat), s.afterLatch (s.cell a.toNat)) := by
  rw [memRead_of_byte, useLatch_of_readable h]

section
variable {r : Fin 8} {s : State} (hsp : s.written spIdx = true)
include hsp

/-- POP raises `sp` as it stands after the write of `x[r]`: for R7 that is the popped byte. -/
theorem execPop_of_readable {l : Option Byte} {u : State} (hc : s.cell (s.reg spIdx).toNat = l) (hl : s.latchReadable l)
    (hu : u = ((s.afterLatch l).setPc (s.pc + 2)).setReg r (s.latchVal l)) :
    execPop (regByte r) s = .next (u.setReg spIdx (spAbove (u.reg spIdx))) := by
  subst hc
  have hw : u.written spIdx = true := hu ▸ ((((Keeps.refl s).afterLatch _).setPc _).setReg r _).written spIdx hsp
  have hmem := memRead_of_readable (s := s.setPc (s.pc + 2)) (a := s.reg spIdx) hl
  rw [State.afterLatch_setPc, State.setPc_latchVal, State.setPc_cell] at hmem
  refine execute_ok (i := .pop (regByte r)) ?_
  simp only [length_pop, regOperand_regByte, readReg_of_written (s := s.setPc (s.pc + 2)) hsp, State.setPc_reg, hmem, ← hu,
    incSp_of_written hw, bind, Except.bind]

theorem execPop_of_unwritten (hu : s.uninit ≠ .draw) (hc : s.cell (s.reg spIdx).toNat = none) :
    execPop (regByte r) s = .next (s.raise (some 0x46) (.uninitialisedRead .memory (s.reg spIdx).toNat)) :=
  execPop_of_memRead_error (readReg_of_written (s := s.setPc (s.pc + 2)) hsp)
    (memRead_of_unwritten hu (Nat.le_of_lt_succ (BitVec.isLt _)) hc)

end

/-! ### POP after PUSH -/

/-- Writing back what a written register holds changes nothing. -/
theorem State.setReg_self {s : State} {i : Fin 8} (h : s.written i = true) : s.setReg i (s.reg i) = s := by
  simp only [State.written, Vector.get_eq_getElem] at h
  simp [State.setReg, State.reg, Vector.get_eq_getElem, ← h]

theorem State.setReg_setReg (s : State) (i : Fin 8) (v w : Byte) : (s.setReg i v).setReg i w = s.setReg i w := by
  simp [State.setReg]

theorem spAbove_spBelow (sp : Byte) : spAbove (spBelow sp) = sp := BitVec.sub_add_cancel sp 1

/-- A POP that finds in the popped cell what `x[r]` holds already does no more than raise `sp`. -/
theorem execPop_of_own_value {r : Fin 8} {s : State} (hsp : s.written spIdx = true) (hr : s.written r = true)
    (hc : s.cell (s.reg spIdx).toNat = some (s.reg r)) :
    execPop (regByte r) s = .next ((s.setPc (s.pc + 2)).setReg spIdx (spAbove (s.reg spIdx))) :=
  execPop_of_readable hsp hc rfl (State.setReg_self (s := s.setPc (s.pc + 2)) hr).symm

/-- Between two writes of a register, the second of which restores it, the writes of `pc` and of a cell stay. -/
theorem State.setReg_restored {s : State} {i : Fin 8} (h : s.written i = true) (n m a : Nat) (v b : Byte) :
    ((((s.setPc n).setReg i b).setCell a v).setPc m).setReg i (s.reg i) = (s.setPc m).setCell a v :=
  (State.setReg_setReg ((s.setPc m).setCell a v) i b (s.reg i)).trans (State.setReg_self (s := (s.setPc m).setCell a v) h)

/-- Of a PUSH and a POP of the same register there remain the advance of `pc` and the byte stored. -/
theorem execPop_after_execPush {r : Fin 8} {s : State} (hsp : s.written spIdx = true) (hr : s.written r = true) :
    ∃ t v, execPush (regByte r) s = .next t ∧
      execPop (regByte r) t = .next ((s.setPc (s.pc + 4)).setCell (spBelow (s.reg spIdx)).toNat v) := by
  obtain ⟨w, hw⟩ : ∃ w, w = (s.setPc (s.pc + 2)).setReg spIdx (spBelow (s.reg spIdx)) := ⟨_, rfl⟩
  have hkeeps : Keeps s w := hw ▸ ((Keeps.refl s).setPc _).setReg spIdx _
  have hpc : w.pc = s.pc + 2 := by rw [hw, State.setReg_pc, State.setPc_pc]
  have hlow : w.reg spIdx = spBelow (s.reg spIdx) := by rw [hw, State.setReg_reg_self]
  have hpop := execPop_of_own_value (s := w.setCell (w.reg spIdx).toNat (w.reg r))
    (hkeeps.written spIdx hsp) (hkeeps.written r hr) (State.setCell_cell_self w _ _)
  refine ⟨_, w.reg r, execPush_of_written hsp hw hr, hpop.trans (congrArg Host.Outcome.next ?_)⟩
  rw [State.setCell_reg, State.setCell_pc, hlow, hpc, spAbove_spBelow, hw]
  exact State.setReg_restored hsp _ _ _ _ _

/-! ### Frames -/

namespace Frame

variable {R : Fin 8 → Prop} {M : Nat → Prop} {s t : State}

theorem setCell (h : Frame R M s t) {a : Nat} (ha : M a) (v : Byte) : Frame R M s (t.setCell a v) where
  regs := h.regs
  mem x hx := (State.setCell_cell_other t (fun hxa : x = a => hx (hxa ▸ ha)) v).trans (h.mem x hx)
  out := h.out
  uninit := h.uninit

theorem afterLatch (h : Frame R M s t) (l : Option Byte) : Frame R M s (t.afterLatch l) := by
  rcases t.afterLatch_cases l with e | ⟨-, e⟩ <;> rw [e]
  exacts [h, h.afterDraw]

theorem spLowered (h : Frame R M s t) (hR : R spIdx) : Frame R M s t.spLowered := (h.afterRegRead spIdx).setReg hR _

theorem incSp {u : State} (h : Frame R M s t) (hR : R spIdx) (hu : incSp t = .ok u) : Frame R M s u := by
  obtain ⟨-, rfl⟩ := incSp_ok hu
  exact (h.afterRegRead spIdx).setReg hR _

end Frame

/-- PUSH and CALL write `sp` and the cell below the value a read of `sp` gives. -/
theorem exec_storing_frame {a : Byte} {i : Instr} {s t : State} (hi : i = .push a ∨ i = .call a) (h : exec i s = .next t) :
    Frame (fun r => r = spIdx) (fun x => x = (spBelow (s.regVal spIdx)).toNat) s t := by
  have hlow := ((Frame.refl (R := fun r => r = spIdx) (M := fun x => x = (spBelow (s.regVal spIdx)).toNat) s).setPc
    (s.pc + 2)).spLowered rfl
  rcases hi with rfl | rfl
  · refine (execPush_cases h).frame ?_
    rintro ⟨r, -, -, -, rfl⟩
    exact (hlow.afterRegRead r).setCell rfl _
  · refine (execCall_cases h).frame ?_
    rintro ⟨r, s1, -, -, rfl, -, rfl⟩
    exact ((hlow.setCell rfl _).afterRegRead r).setPc _

theorem execPop_frame {a : Byte} {s t : State} (h : execPop a s = .next t) :
    Frame (fun r => r.val = a.toNat ∨ r = spIdx) (fun _ => False) s t := by
  refine (execPop_cases h).frame ?_
  rintro ⟨r, s1, s2, ha, hr, -, rfl, ht⟩
  obtain ⟨-, -, rfl⟩ := readReg_ok hr
  exact (((((Frame.refl s).setPc _).afterRegRead spIdx).afterLatch _).setReg (.inl (regOperand_ok ha)) _).incSp (.inr rfl) ht

theorem execRet_frame {s t : State} (h : execRet s = .next t) :
    Frame (fun r => r = spIdx) (fun _ => False) s t := by
  refine (execRet_cases h).frame ?_
  rintro ⟨s1, hr, -, ht⟩
  obtain ⟨-, -, rfl⟩ := readReg_ok hr
  exact ((((Frame.refl s).setPc _).afterRegRead spIdx).afterLatch _).setPc _ |>.incSp rfl ht

end Sys2Proof.Machine

namespace Sys2Proof.Proofs

open Sys2Proof Sys2Proof.Machine

/-- Settles O15: R7 is written by the decrement itself, so what PUSH R7 reads back and stores is the decremented `sp`. -/
theorem pushStoresBelowTheStackPointer : Obligations.PushStoresBelowTheStackPointer := by
  refine ⟨fun _ => rfl, fun r s hsp hr hne => ?_, fun s hsp => ?_, fun _ => execPush_of_not_register,
    fun r s hsp hu hr => execPush_of_unwritten hsp hu hr⟩
  · refine (execPush_of_readable_other hsp hr hne).trans ?_
    simp [State.setCell, State.setReg, State.setPc, spBelow]
  · refine (execPush_of_written (r := spIdx) hsp rfl hsp).trans ?_
    rw [State.setReg_reg_self]
    rfl

/-- Settles O16: one lemma for every register, which reads `sp` again after the write of `x[a]`. -/
theorem popLoadsFromTheStackPointer : Obligations.PopLoadsFromTheStackPointer := by
  refine ⟨fun _ => rfl, fun r s hsp hl hne => ?_, fun s hsp hl => ?_, fun _ => execPop_of_not_register,
    fun r s hsp hu hc => execPop_of_unwritten hsp (by simp [hu]) hc⟩
  · refine (execPop_of_readable hsp rfl hl rfl).trans ?_
    rw [State.setReg_reg_other _ hne.symm, State.setPc_reg, State.afterLatch_reg]
    simp [State.setReg, State.setPc, spAbove]
  · refine (execPop_of_readable (r := spIdx) hsp rfl hl rfl).trans ?_
    rw [State.setReg_reg_self]
    simp [State.setReg, State.setPc, spAbove]

/-- Settles O37: the stored byte is what register `r` holds after the decrement, so POP has the decrement alone to undo. -/
theorem pushThenPopRestores : Obligations.PushThenPopRestores := by
  intro r s hsp hr
  obtain ⟨t, v, hpush, hpop⟩ := execPop_after_execPush hsp hr
  exact ⟨t, _, hpush, hpop, fun _ _ => ⟨rfl, rfl⟩, rfl, rfl, rfl, rfl⟩

/-- Settles O22: the frame of the instruction's own effect, which its error stop keeps. -/
theorem storingInstructionsKeepTheRest : Obligations.StoringInstructionsKeepTheRest := by
  intro a i hi s t h
  have hf := exec_storing_frame hi h
  have hne : i ≠ .hlt := by rcases hi with rfl | rfl <;> nofun
  exact ⟨hf.regs, hf.mem, hf.out, hf.uninit, exec_goesOnOrStops hne h⟩

/-- Settles O23, in the same way: no write of POP or RET is to memory. -/
theorem poppingInstructionsKeepTheRest : Obligations.PoppingInstructionsKeepTheRest := by
  refine ⟨fun a s t h => ?_, fun s t h => ?_⟩
  · have hf := execPop_frame h
    exact ⟨hf.regs, hf.mem, hf.out, hf.uninit, exec_goesOnOrStops nofun h⟩
  · have hf := execRet_frame h
    exact ⟨hf.regs, hf.mem, hf.out, hf.uninit, exec_goesOnOrStops nofun h⟩

end Sys2Proof.Proofs
end

section
/-! PROOFS. The statements about subroutines (44_subroutine.md): what CALL and RET answer, that a RET undoes the CALL it returns
from, and that the other instructions advance `pc`. -/

namespace Sys2Proof.Machine

/-! ### CALL -/

theorem execCall_of_not_register {a : Byte} (s : State) (h : 7 < a.toNat) :
    execCall a s = .next (s.raise (some 0x50) (.outOfBoundsAccess .register a.toNat)) :=
  execute_of_not_register h

/-- From every address that can be fetched from, a byte holds the whole return address. -/
theorem trunc8_return_toNat {pc : Nat} (h : pc ≤ 253) : (trunc8 (pc + 2)).toNat = pc + 2 :=
  Nat.mod_eq_of_lt (by omega)

section
variable {r : Fin 8} {s : State} (hsp : s.written spIdx = true)
include hsp

/-- The target is read as it stood before the CALL, for neither the decrement nor the store touches another register. -/
theorem execCall_of_readable_other (hr : s.regReadable r) (hne : r ≠ spIdx) :
    execCall (regByte r) s = .next ((((s.afterRegRead r).setReg spIdx (spBelow (s.reg spIdx))).setCell
      (spBelow (s.reg spIdx)).toNat (trunc8 (s.pc + 2))).setPc (s.regVal r).toNat) := by
  rw [execCall_of_readable hsp hr rfl, State.spLowered_of_written (s := s.setPc (s.pc + 2)) hsp, State.setPc_reg,
    State.afterRegRead_setCell, State.afterRegRead_setReg_other _ hne, State.afterRegRead_setPc, State.setCell_regVal,
    State.setReg_regVal_other _ hne, State.setPc_regVal]
  rfl

/-- CALL R7 goes to the cell that holds its return address. -/
theorem execCall_sp :
    execCall (regByte spIdx) s = .next (((s.setReg spIdx (spBelow (s.reg spIdx))).setCell
      (spBelow (s.reg spIdx)).toNat (trunc8 (s.pc + 2))).setPc (spBelow (s.reg spIdx)).toNat) := by
  have hw : ((s.setPc (s.pc + 2)).setReg spIdx (spBelow (s.reg spIdx))).written spIdx = true :=
    State.setReg_written_self _ _ _
  rw [execCall_of_readable hsp (State.regReadable_of_written hsp) rfl,
    State.spLowered_of_written (s := s.setPc (s.pc + 2)) hsp, State.setPc_reg, State.afterRegRead_setCell,
    State.afterRegRead_of_written hw, State.setCell_regVal, State.regVal_of_written hw, State.setReg_reg_self]
  rfl

/-- The target is read last, and its error discards the decrement and the store before it. -/
theorem execCall_of_unwritten (hu : s.uninit = .fault) (hr : s.written r = false) :
    execCall (regByte r) s = .next (s.raise (some 0x50) (.uninitialisedRead .register r.val)) := by
  have hne : r ≠ spIdx := by
    rintro rfl
    simp [hsp] at hr
  have hread (a : Nat) (v : Byte) : readReg r (((s.setPc (s.pc + 2)).setReg spIdx (spBelow (s.reg spIdx))).setCell a v) =
      .error (.uninitialisedRead .register r.val) :=
    readReg_of_unreadable ((State.setReg_written_other _ hne (spBelow (s.reg spIdx))).trans hr) hu
  refine execute_error (i := .call (regByte r)) ?_
  simp only [length_call, regOperand_regByte, decSp_of_written (s := s.setPc (s.pc + 2)) hsp, State.setPc_reg,
    memWrite_of_byte, hread, bind, Except.bind]

/-- What a completing CALL leaves for the RET: `sp` decremented, and the return address in the cell there. -/
theorem execCall_leaves_return (hr : s.regReadable r) : ∃ t, execCall (regByte r) s = .next t ∧
    t.reg spIdx = spBelow (s.reg spIdx) ∧ t.cell (spBelow (s.reg spIdx)).toNat = some (trunc8 (s.pc + 2)) := by
  refine ⟨_, execCall_of_readable hsp hr rfl, ?_, ?_⟩
  · simp [State.spLowered_of_written (s := s.setPc (s.pc + 2)) hsp]
  · simp

end

/-! ### RET -/

section
variable {s : State} (hsp : s.written spIdx = true)
include hsp

theorem execRet_of_readable {l : Option Byte} (hc : s.cell (s.reg spIdx).toNat = l) (hl : s.latchReadable l) :
    execRet s = .next (((s.afterLatch l).setPc (s.latchVal l).toNat).setReg spIdx (spAbove (s.reg spIdx))) := by
  subst hc
  have hw : ((s.afterLatch (s.cell (s.reg spIdx).toNat)).setPc
      (s.latchVal (s.cell (s.reg spIdx).toNat)).toNat).written spIdx = true :=
    (((Keeps.refl s).afterLatch _).setPc _).written spIdx hsp
  have hmem := memRead_of_readable (s := s.setPc (s.pc + 1)) (a := s.reg spIdx) hl
  rw [State.afterLatch_setPc, State.setPc_latchVal, State.setPc_cell] at hmem
  refine execute_ok (i := .ret) ?_
  simp only [length_ret, readReg_of_written (s := s.setPc (s.pc + 1)) hsp, State.setPc_reg, hmem, bind, Except.bind]
  exact (incSp_of_written hw).trans (by rw [State.setPc_reg, State.afterLatch_reg])

theorem execRet_of_unwritten (hu : s.uninit ≠ .draw) (hc : s.cell (s.reg spIdx).toNat = none) :
    execRet s = .next (s.raise (some 0x11) (.uninitialisedRead .memory (s.reg spIdx).toNat)) :=
  execRet_of_memRead_error (readReg_of_written (s := s.setPc (s.pc + 1)) hsp)
    (memRead_of_unwritten hu (Nat.le_of_lt_succ (BitVec.isLt _)) hc)

end

/-! ### Which instructions redirect `pc` -/

/-- CALL and RET, the two instructions that write `pc` after its advance (44_subroutine.md R133). -/
def Redirects (i : Instr) : Prop := (∃ a, i = .call a) ∨ i = .ret

/-- Every other instruction completes with `pc` advanced by its length, or makes the error stop. -/
theorem exec_advances {i : Instr} {s t : State} (hi : ¬ Redirects i) (h : exec i s = .next t) :
    EffectOrStop i s t (t.pc = s.pc + i.length) := by
  cases i with
  | call a => exact absurd (.inl ⟨a, rfl⟩) hi
  | ret => exact absurd (.inr rfl) hi
  | hlt =>
    rw [exec_hlt] at h
    cases h
    exact .inl (by simp)
  | ldi a b =>
    refine (execLdi_cases h).imp ?_
    rintro ⟨r, -, rfl⟩
    simp
  | add a b => exact (execAdd_cases h).imp fun ht => by simpa using (aluRegs_keeps ht).2
  | mul a b => exact (execMul_cases h).imp fun ht => by simpa using (aluRegs_keeps ht).2
  | prn a =>
    refine (execPrn_cases h).imp ?_
    rintro ⟨r, -, -, rfl⟩
    simp
  | push a =>
    refine (execPush_cases h).imp ?_
    rintro ⟨r, -, -, -, rfl⟩
    simp [State.spLowered]
  | pop a =>
    refine (execPop_cases h).imp ?_
    rintro ⟨r, s1, s2, -, hr, -, rfl, ht⟩
    obtain ⟨-, -, rfl⟩ := readReg_ok hr
    obtain ⟨-, rfl⟩ := incSp_ok ht
    simp

end Sys2Proof.Machine

namespace Sys2Proof.Proofs

open Sys2Proof Sys2Proof.Machine

/-- Settles O17: R7 is written by the decrement itself, so CALL R7 goes to the decremented `sp`; the other registers are read as
they stood. -/
theorem callPushesTheReturnAddress : Obligations.CallPushesTheReturnAddress := by
  refine ⟨fun _ => rfl, fun r s hsp hr hne => ?_, fun s hsp => ?_, fun _ => execCall_of_not_register,
    fun r s hsp hu hr => execCall_of_unwritten hsp hu hr, fun _ => trunc8_return_toNat⟩
  · refine (execCall_of_readable_other hsp hr hne).trans ?_
    simp [State.setCell, State.setReg, State.setPc, spBelow, trunc8]
  · exact execCall_sp hsp

/-- Settles O18: a readable cell gives the target, and an unwritten one raises under `fault`. -/
theorem retPopsThePc : Obligations.RetPopsThePc := by
  refine ⟨rfl, fun s hsp hl => ?_, fun s hsp hu hc => execRet_of_unwritten hsp (by simp [hu]) hc⟩
  refine (execRet_of_readable hsp rfl hl).trans ?_
  simp [State.setReg, State.setPc, spAbove]

/-- Settles O34: an instruction that does not redirect `pc` advances it or stops. -/
theorem onlyCallAndRetRedirectThePc : Obligations.OnlyCallAndRetRedirectThePc := by
  intro i s t h
  by_cases hi : Redirects i
  · exact .inr (.inr hi)
  · rcases exec_advances hi h with hpc | ⟨e, -, he⟩
    · exact .inl hpc
    · exact .inr (.inl ⟨e, he⟩)

/-- Settles O38: the return address is a written byte, so the RET draws nothing and pops it whole. -/
theorem callThenRetResumesAfterTheCall : Obligations.CallThenRetResumesAfterTheCall := by
  intro r s hpc hsp hr
  obtain ⟨t, hcall, htsp, htcell⟩ := execCall_leaves_return hsp hr
  refine ⟨t, hcall, fun u husp huw hucell => ?_⟩
  have hcell : u.cell (u.reg spIdx).toNat = some (trunc8 (s.pc + 2)) := by rw [husp, hucell, htsp, htcell]
  refine ⟨_, execRet_of_readable huw hcell rfl, trunc8_return_toNat hpc, ?_, rfl, fun x hx => ?_⟩
  · rw [State.setReg_reg_self, husp, htsp, spAbove_spBelow]
  · exact ⟨State.setReg_reg_other _ hx _, State.setReg_written_other _ hx _⟩

end Sys2Proof.Proofs
end

section
/-! PROOFS. The statements about output and halt (45_io_control.md): what PRN answers, that it is one emission over an empty
frame, and that no other instruction adds to the output. -/

namespace Sys2Proof.Machine

/-! ### PRN -/

theorem execPrn_of_readable {r : Fin 8} {s : State} (hr : s.regReadable r) :
    execPrn (regByte r) s = .next (((s.afterRegRead r).setPc (s.pc + 2)).emit (s.regVal r)) := by
  refine execute_ok (i := .prn (regByte r)) ?_
  simp only [length_prn, regOperand_regByte, readReg_of_readable (s := s.setPc (s.pc + 2)) hr, State.afterRegRead_setPc,
    State.setPc_regVal, bind, Except.bind, pure, Except.pure]

theorem execPrn_of_not_register {a : Byte} (s : State) (h : 7 < a.toNat) :
    execPrn a s = .next (s.raise (some 0x47) (.outOfBoundsAccess .register a.toNat)) :=
  execute_of_not_register h

theorem execPrn_of_unwritten {r : Fin 8} {s : State} (hu : s.uninit = .fault) (hr : s.written r = false) :
    execPrn (regByte r) s = .next (s.raise (some 0x47) (.uninitialisedRead .register r.val)) := by
  refine execute_error (i := .prn (regByte r)) ?_
  simp only [length_prn, regOperand_regByte, readReg_of_unreadable (s := s.setPc (s.pc + 2)) hr hu, bind, Except.bind]

/-- PRN names a register and emits one value, keeping all that an empty frame keeps, or makes the error stop. -/
theorem execPrn_emits {a : Byte} {s t : State} (h : execPrn a s = .next t) :
    EffectOrStop (.prn a) s t (∃ r v u, a = regByte r ∧ Frame (fun _ => False) (fun _ => False) s u ∧ t = u.emit v) := by
  refine (execPrn_cases h).imp ?_
  rintro ⟨r, hr, -, rfl⟩
  exact ⟨r, _, _, eq_regByte_of_regOperand hr, ((Frame.refl s).setPc _).afterRegRead r, rfl⟩

/-! ### The output -/

theorem exec_out_of_not_prn {i : Instr} {s t : State} (hi : ∀ a, i ≠ .prn a) (h : exec i s = .next t) : t.out = s.out := by
  cases i with
  | prn a => exact absurd rfl (hi a)
  | hlt =>
    rw [exec_hlt] at h
    cases h
    rfl
  | ldi a b => exact (exec_register_frame (.inl rfl) h).out
  | add a b => exact (exec_register_frame (.inr (.inl rfl)) h).out
  | mul a b => exact (exec_register_frame (.inr (.inr rfl)) h).out
  | push a => exact (exec_storing_frame (.inl rfl) h).out
  | call a => exact (exec_storing_frame (.inr rfl) h).out
  | pop a => exact (execPop_frame h).out
  | ret => exact (execRet_frame h).out

theorem execPrn_out {a : Byte} {s t : State} (h : execPrn a s = .next t) :
    t.out = s.out ∨ ∃ r v, a = regByte r ∧ t.out = s.out ++ [v] := by
  rcases execPrn_emits h with ⟨r, v, u, ha, hf, rfl⟩ | ⟨e, -, rfl⟩
  · exact .inr ⟨r, v, ha, congrArg (· ++ [v]) hf.out⟩
  · exact .inl rfl

theorem exec_out {i : Instr} {s t : State} (h : exec i s = .next t) :
    t.out = s.out ∨ ∃ r v, i = .prn (regByte r) ∧ t.out = s.out ++ [v] := by
  by_cases hi : ∃ a, i = .prn a
  · obtain ⟨a, rfl⟩ := hi
    exact (execPrn_out h).imp_right fun ⟨r, v, ha, ht⟩ => ⟨r, v, congrArg Instr.prn ha, ht⟩
  · exact .inl (exec_out_of_not_prn (not_exists.mp hi) h)

/-- A fetch leaves the output, so a step does to it what the fetched instruction does. -/
theorem step_out {s t : State} (h : step s = .next t) : t.out = s.out ∨ ∃ v, t.out = s.out ++ [v] := by
  rcases step_running (step_next_running h) with ⟨i, u, hf, hstep⟩ | ⟨ir, e, -, hstep⟩
  · obtain ⟨-, d, -, rfl⟩ := fetch_ok hf
    exact (exec_out (hstep.symm.trans h)).imp_right fun ⟨_, v, _, ht⟩ => ⟨v, ht⟩
  · rw [hstep] at h
    cases h
    exact .inl rfl

end Sys2Proof.Machine

namespace Sys2Proof.Proofs

open Sys2Proof Sys2Proof.Machine

/-- Settles O19: a PRN that emits goes on running, so one that leaves the core faulted made the error stop. -/
theorem prnEmitsTheRegister : Obligations.PrnEmitsTheRegister := by
  refine ⟨fun _ => rfl, fun r s hr => ?_, fun _ => execPrn_of_not_register, fun _ _ => execPrn_of_unwritten, ?_⟩
  · refine (execPrn_of_readable hr).trans ?_
    simp [State.emit, State.setPc]
  · intro a s t h hfaulted hrunning
    rcases exec_goesOnOrStops (i := .prn a) nofun h with ⟨hrun, -⟩ | ⟨e, rfl⟩
    · rw [hrun, hrunning] at hfaulted
      cases hfaulted
    · rfl

/-- Settles O20: only a running core steps, and HLT leaves it halted; the bound of the prefetch is checked before HLT is read. -/
theorem hltHaltsTheCore : Obligations.HltHaltsTheCore := by
  refine ⟨rfl, exec_hlt, fun s t u h hstep => ?_, fun s hr hpc _ => prefetchAboveMemoryRaises s hr hpc⟩
  rw [exec_hlt] at h
  cases h
  cases step_next_running hstep

/-- Settles O24: PRN emits over the empty frame or makes the error stop; HLT writes `pc` and the run state alone. -/
theorem outputAndHaltKeepTheRest : Obligations.OutputAndHaltKeepTheRest := by
  refine ⟨fun a s t h => ?_, fun s t h => ?_⟩
  · have hstops := exec_goesOnOrStops (i := .prn a) nofun h
    rcases execPrn_emits h with ⟨r, v, u, -, hf, rfl⟩ | ⟨e, -, rfl⟩
    · exact ⟨hf.regs, hf.mem, hf.uninit, .inr ⟨v, congrArg (· ++ [v]) hf.out⟩, hstops⟩
    · exact ⟨fun _ _ => ⟨rfl, rfl⟩, fun _ _ => rfl, rfl, .inl rfl, hstops⟩
  · rw [exec_hlt] at h
    cases h
    exact ⟨fun _ _ => ⟨rfl, rfl⟩, fun _ _ => rfl, rfl, rfl, rfl, rfl⟩

/-- Settles O35: a step leaves the output or appends one value to it, whichever instruction it fetched. -/
theorem outputGrowsByPrnAlone : Obligations.OutputGrowsByPrnAlone := by
  refine ⟨fun _ _ _ => exec_out, fun s t h => ?_⟩
  rcases step_out h with ht | ⟨v, ht⟩ <;> rw [ht]
  · exact ⟨List.prefix_refl _, Nat.le_succ _⟩
  · exact ⟨List.prefix_append _ _, by simp⟩

end Sys2Proof.Proofs
end

section
/-! PROOFS. The statements about errors (60_exceptions.md): the opcode byte an error record holds, what a step that ends faulted
changes, and the priority list of R159, first for one instruction and then for the whole step. -/

namespace Sys2Proof.Machine

/-! ### The opcode byte of an error record -/

/-- The opcode byte the fetch comes to know: none where a bound fails, nor where the opcode cell gives no value. -/
def State.fetchedOpcode (s : State) : Option Byte :=
  if s.pc ≤ 253 ∧ s.latchReadable (s.cell s.pc) then some (s.latchVal (s.cell s.pc)) else none

/-- The opcode byte that a fetch's answer carries, as an instruction's or beside an error. -/
def answeredOpcode : Except FetchError (Instr × State) → Option Byte
  | .ok (i, _) => some i.opcode
  | .error (ir, _) => ir

theorem answeredOpcode_fetchOperands {ir : Byte} {make : Byte → Byte → Instr} (ho : opcodeMap ir = some make) (pc n : Nat)
    (la lb : Option Byte) (s : State) :
    answeredOpcode (withIr (some ir) (fetchOperands pc n la lb make s)) = some ir := by
  cases hf : fetchOperands pc n la lb make s with
  | error e => rfl
  | ok p =>
    obtain ⟨⟨a, u⟩, -, hf⟩ := bind_ok hf
    obtain ⟨⟨b, v⟩, -, hf⟩ := bind_ok hf
    cases hf
    exact congrArg some (opcodeMap_some ho a b)

/-- What a fetch answers carries the opcode byte exactly where it was fetched. -/
theorem answeredOpcode_fetch (s : State) : answeredOpcode (fetch s) = s.fetchedOpcode := by
  unfold State.fetchedOpcode
  split_ifs with h
  · obtain ⟨hpc, hl⟩ := h
    have hread := (memRead_of_le (show s.pc ≤ 255 by omega)).trans (useLatch_of_readable hl)
    cases ho : opcodeMap (s.latchVal (s.cell s.pc)) with
    | none => rw [fetch_of_illegal hpc hread ho]; rfl
    | some make => rw [fetch_of_legal hpc hread ho, answeredOpcode_fetchOperands ho]
  · by_cases hpc : s.pc ≤ 253
    · have hread := (memRead_of_le (show s.pc ≤ 255 by omega)).trans (if_neg fun hl => h ⟨hpc, hl⟩)
      rw [fetch_of_opcode_error hpc hread]
      rfl
    · obtain ⟨e, hb, -⟩ := fetchBounds_error (Nat.lt_of_not_le hpc)
      rw [fetch_of_bounds_error hb]
      rfl

theorem State.fetchedOpcode_of_cell {s : State} {ir : Byte} (hpc : s.pc ≤ 253) (hc : s.cell s.pc = some ir) :
    s.fetchedOpcode = some ir := by
  simp [State.fetchedOpcode, hpc, hc, State.latchReadable, State.latchVal]

theorem State.fetchedOpcode_eq_none_iff {s : State} :
    s.fetchedOpcode = none ↔ 255 < s.pc + 2 ∨ (s.cell s.pc = none ∧ s.uninit ≠ .draw) := by
  have hpc : 255 < s.pc + 2 ↔ ¬ s.pc ≤ 253 := by omega
  simp only [State.fetchedOpcode, State.latchReadable_iff, hpc, ite_eq_right_iff, reduceCtorEq, imp_false, not_and_or, not_or,
    Bool.not_eq_true, Option.isSome_eq_false_iff, Option.isNone_iff_eq_none, ne_eq]

/-! ### The error stop of a step -/

theorem exec_faulted {i : Instr} {s t : State} (hr : s.run = .running) (h : exec i s = .next t) (ht : t.run = .faulted) :
    ∃ e : ErrKind, e.reserved = false ∧ t = s.raise (some i.opcode) e := by
  by_cases hi : i = .hlt
  · subst hi
    rw [exec_hlt] at h
    cases h
    cases ht
  · rcases exec_keeps hi h with ⟨hk, -⟩ | hstop
    · rw [hk.run, hr] at ht
      cases ht
    · exact hstop

/-- A step that ends faulted is the error stop of its first state, but for the draw counter, with an error that is not
reserved. -/
theorem step_faulted {s t : State} (h : step s = .next t) (ht : t.run = .faulted) :
    ∃ e : ErrKind, e.reserved = false ∧ t = { s.raise s.fetchedOpcode e with draws := t.draws } := by
  have hr := step_next_running h
  rcases step_running hr with ⟨i, u, hf, hstep⟩ | ⟨ir, e, hf, hstep⟩
  · obtain ⟨-, d, -, rfl⟩ := fetch_ok hf
    obtain ⟨e, he, rfl⟩ := exec_faulted (s := { s with draws := d }) hr (hstep.symm.trans h) ht
    have hir : some i.opcode = s.fetchedOpcode := by rw [← answeredOpcode_fetch, hf]; rfl
    exact ⟨e, he, by rw [hir]; rfl⟩
  · rw [hstep] at h
    cases h
    have hir : ir = s.fetchedOpcode := by rw [← answeredOpcode_fetch, hf]; rfl
    exact ⟨e, fetch_error_kind hf, by rw [hir]⟩

/-! ### The first error of a list -/

/-- The outcome completes the step from `s`: it goes on or halts, and leaves the error record. -/
def Completes (s : State) (o : Host.Outcome State Fault Refusal) : Prop :=
  ∃ t, o = .next t ∧ t.run ≠ .faulted ∧ t.err = s.err

/-- The outcome is the error stop of the first error in `l` whose condition holds, and completes where none does. -/
def ReportsFirst (s : State) (l : List (Bool × Option Byte × ErrKind)) (o : Host.Outcome State Fault Refusal) : Prop :=
  (∀ c ir e, l.find? (·.1) = some (c, ir, e) → o = .next (s.raise ir e)) ∧ (l.find? (·.1) = none → Completes s o)

section
variable {s : State} {l m : List (Bool × Option Byte × ErrKind)} {o : Host.Outcome State Fault Refusal}

theorem Completes.of_keeps {t : State} (hr : s.run = .running) (ho : o = .next t) (hk : Keeps s t) : Completes s o :=
  ⟨t, ho, by simp [hk.run, hr], hk.err⟩

theorem ReportsFirst.nil (h : Completes s o) : ReportsFirst s [] o := ⟨nofun, fun _ => h⟩

theorem ReportsFirst.cons {c : Bool} {ir : Option Byte} {e : ErrKind} (hc : c = true → o = .next (s.raise ir e))
    (hl : c = false → ReportsFirst s l o) : ReportsFirst s ((c, ir, e) :: l) o := by
  cases c with
  | true => exact ⟨fun _ _ _ h => by cases h; exact hc rfl, nofun⟩
  | false => exact hl rfl

/-- Entries whose condition is false do not count. -/
theorem ReportsFirst.of_find?_eq (h : m.find? (·.1) = l.find? (·.1)) (hl : ReportsFirst s l o) : ReportsFirst s m o := by
  unfold ReportsFirst
  rwa [h]

end

/-! ### The errors of one instruction -/

theorem exists_regByte {a : Byte} (h : ¬ 7 < a.toNat) : ∃ r, a = regByte r :=
  ⟨⟨a.toNat, by omega⟩, BitVec.eq_of_toNat_eq (regByte_toNat ⟨a.toNat, by omega⟩).symm⟩

@[simp] theorem State.writtenByte_regByte (s : State) (r : Fin 8) : s.writtenByte (regByte r) = s.written r := by
  simp [State.writtenByte]

/-- The operand byte `a` names no register (R159, item 6). -/
def notRegister (ir a : Byte) : Bool × Option Byte × ErrKind := (7 < a.toNat, some ir, .outOfBoundsAccess .register a.toNat)

/-- The register that `a` names is unwritten (R159, item 7). -/
def unwrittenRegister (s : State) (ir a : Byte) : Bool × Option Byte × ErrKind :=
  (!s.writtenByte a, some ir, .uninitialisedRead .register a.toNat)

/-- The cell at `sp` is unwritten (R159, item 7). -/
def unwrittenTop (s : State) (ir : Byte) : Bool × Option Byte × ErrKind :=
  ((s.cell (s.reg spIdx).toNat).isNone, some ir, .uninitialisedRead .memory (s.reg spIdx).toNat)

/-- Items 6 and 7 of R159 for one instruction: the errors it checks for, in its own order. -/
def execErrors (i : Instr) (s : State) : List (Bool × Option Byte × ErrKind) :=
  match i with
  | .ldi a _ => [notRegister i.opcode a]
  | .prn a | .push a | .call a => [notRegister i.opcode a, unwrittenRegister s i.opcode a]
  | .hlt => []
  | .mul a b | .add a b => [notRegister i.opcode a, notRegister i.opcode b, unwrittenRegister s i.opcode a,
      unwrittenRegister s i.opcode b]
  | .pop a => [notRegister i.opcode a, unwrittenTop s i.opcode]
  | .ret => [unwrittenTop s i.opcode]

section
variable {s : State} {l : List (Bool × Option Byte × ErrKind)} {o : Host.Outcome State Fault Refusal} {ir a : Byte}

/-- A register operand is checked before anything else; past the check it names a register. -/
theorem ReportsFirst.cons_notRegister
    (hc : 7 < a.toNat → o = .next (s.raise (some ir) (.outOfBoundsAccess .register a.toNat)))
    (hl : ∀ r, a = regByte r → ReportsFirst s l o) : ReportsFirst s (notRegister ir a :: l) o := by
  refine .cons (fun h => hc (of_decide_eq_true h)) fun h => ?_
  obtain ⟨r, hr⟩ := exists_regByte (of_decide_eq_false h)
  exact hl r hr

theorem ReportsFirst.cons_unwrittenRegister {r : Fin 8}
    (hc : s.written r = false → o = .next (s.raise (some ir) (.uninitialisedRead .register r.val)))
    (hl : s.written r = true → ReportsFirst s l o) : ReportsFirst s (unwrittenRegister s ir (regByte r) :: l) o := by
  refine .cons (fun h => ?_) fun h => hl (by simpa using h)
  rw [regByte_toNat]
  exact hc (by simpa using h)

theorem ReportsFirst.singleton_unwrittenTop
    (hc : s.cell (s.reg spIdx).toNat = none →
      o = .next (s.raise (some ir) (.uninitialisedRead .memory (s.reg spIdx).toNat)))
    (hl : ∀ v, s.cell (s.reg spIdx).toNat = some v → Completes s o) : ReportsFirst s [unwrittenTop s ir] o := by
  refine .cons (fun h => hc (Option.isNone_iff_eq_none.mp h)) fun h => .nil ?_
  obtain ⟨v, hv⟩ := Option.isSome_iff_exists.mp (Option.isNone_eq_false_iff.mp h)
  exact hl v hv

/-- An instruction that reads the register its one operand names. -/
theorem ReportsFirst.notRegister_unwrittenRegister
    (hreg : 7 < a.toNat → o = .next (s.raise (some ir) (.outOfBoundsAccess .register a.toNat)))
    (hun : ∀ r, a = regByte r → s.written r = false →
      o = .next (s.raise (some ir) (.uninitialisedRead .register r.val)))
    (hok : ∀ r, a = regByte r → s.written r = true → Completes s o) :
    ReportsFirst s [notRegister ir a, unwrittenRegister s ir a] o := by
  refine .cons_notRegister hreg fun r hr => ?_
  subst hr
  exact .cons_unwrittenRegister (hun r rfl) fun hw => .nil (hok r rfl hw)

end

section
variable {s : State} (hr : s.run = .running) (hu : s.uninit = .fault)
include hr hu

theorem execute_aluRegs_reportsFirst {i : Instr} (op : AluOp) (a b : Byte) :
    ReportsFirst s [notRegister i.opcode a, notRegister i.opcode b, unwrittenRegister s i.opcode a,
      unwrittenRegister s i.opcode b] (execute i s (aluRegs op a b)) := by
  refine .cons_notRegister (fun h => execute_error (aluRegs_of_not_register_left op b h)) fun ra ha => ?_
  subst ha
  refine .cons_notRegister (fun h => execute_error (aluRegs_of_not_register_right op h)) fun rb hb => ?_
  subst hb
  refine .cons_unwrittenRegister (fun hwa => execute_error (aluRegs_of_unwritten_left op hu hwa)) fun hwa => ?_
  refine .cons_unwrittenRegister (fun hwb => execute_error (aluRegs_of_unwritten_right op hu hwa hwb)) fun hwb => .nil ?_
  have hbody := aluRegs_of_readable op (s := s.setPc (s.pc + i.length)) (State.regReadable_of_written hwa)
    (State.regReadable_of_written hwb)
  exact .of_keeps hr (execute_ok hbody) (((((Keeps.refl s).setPc _).afterRegRead ra).afterRegRead rb).setReg ra _)

/-- Under `fault` an instruction reports the first of its own errors, and completes where it has none. -/
theorem exec_reportsFirst (hsp : s.written spIdx = true) (i : Instr) :
    ReportsFirst s (execErrors i s) (exec i s) := by
  have hk := (Keeps.refl s).setPc
  cases i with
  | ldi a b =>
    refine .cons_notRegister (execLdi_of_not_register b s) fun r ha => .nil ?_
    subst ha
    exact .of_keeps hr (execLdi_regByte r b s) ((hk _).setReg r b)
  | prn a =>
    refine .notRegister_unwrittenRegister (execPrn_of_not_register s) (fun r ha hw => ?_) fun r ha hw => ?_ <;> subst ha
    · exact execPrn_of_unwritten hu hw
    · exact .of_keeps hr (execPrn_of_readable (State.regReadable_of_written hw))
        ((((Keeps.refl s).afterRegRead r).setPc _).emit _)
  | hlt => exact .nil ⟨_, exec_hlt s, nofun, rfl⟩
  | mul a b => exact execute_aluRegs_reportsFirst hr hu .mul a b
  | add a b => exact execute_aluRegs_reportsFirst hr hu .add a b
  | push a =>
    refine .notRegister_unwrittenRegister (execPush_of_not_register s) (fun r ha hw => ?_) fun r ha hw => ?_ <;> subst ha
    · exact execPush_of_unwritten hsp hu hw
    · exact .of_keeps hr (execPush_of_readable hsp (State.regReadable_of_written hw))
        (((hk _).spLowered.afterRegRead r).setCell _ _)
  | pop a =>
    refine .cons_notRegister (execPop_of_not_register s) fun r ha => ?_
    subst ha
    refine .singleton_unwrittenTop (execPop_of_unwritten hsp (by simp [hu])) fun v hv => ?_
    exact .of_keeps hr (execPop_of_readable hsp hv rfl rfl)
      (((((Keeps.refl s).afterLatch _).setPc _).setReg r _).setReg spIdx _)
  | call a =>
    refine .notRegister_unwrittenRegister (execCall_of_not_register s) (fun r ha hw => ?_) fun r ha hw => ?_ <;> subst ha
    · exact execCall_of_unwritten hsp hu hw
    · exact .of_keeps hr (execCall_of_readable hsp (State.regReadable_of_written hw) rfl)
        ((((hk _).spLowered.setCell _ _).afterRegRead r).setPc _)
  | ret =>
    refine .singleton_unwrittenTop (execRet_of_unwritten hsp (by simp [hu])) fun v hv => ?_
    exact .of_keeps hr (execRet_of_readable hsp hv rfl) ((((Keeps.refl s).afterLatch _).setPc _).setReg spIdx _)

end

/-! ### The errors of a step -/

/-- Items 6 and 7 of the list of R159, as the list writes them by opcode byte. -/
def errorsAfterFetch (s : State) (ir a b : Byte) : List (Bool × Option Byte × ErrKind) :=
  [ (1 ≤ operandCount ir && 7 < a.toNat, some ir, .outOfBoundsAccess .register a.toNat),
    ((ir == 0xA0 || ir == 0xA2) && 7 < b.toNat, some ir, .outOfBoundsAccess .register b.toNat),
    ([0xA0, 0xA2, 0x45, 0x50, 0x47].contains ir && !s.writtenByte a, some ir, .uninitialisedRead .register a.toNat),
    ((ir == 0xA0 || ir == 0xA2) && !s.writtenByte b, some ir, .uninitialisedRead .register b.toNat),
    ((ir == 0x46 || ir == 0x11) && (s.cell (s.reg spIdx).toNat).isNone, some ir,
      .uninitialisedRead .memory (s.reg spIdx).toNat) ]

theorem mem_nineOpcodes_of_opcodeMap {ir : Byte} {make : Byte → Byte → Instr} (ho : opcodeMap ir = some make) :
    ir ∈ nineOpcodes := by
  by_contra hn
  simp [(opcodeMap_none_iff ir).mpr hn] at ho

/-- The entries of the list that can hold for an opcode byte are those of its instruction, in the same order. -/
theorem find?_errorsAfterFetch {ir : Byte} {make : Byte → Byte → Instr} (ho : opcodeMap ir = some make) (s : State)
    (a b : Byte) :
    (errorsAfterFetch s ir a b).find? (·.1) = (execErrors (make a b) s).find? (·.1) := by
  have hir := mem_nineOpcodes_of_opcodeMap ho
  simp only [nineOpcodes, List.mem_cons, List.not_mem_nil, or_false] at hir
  rcases hir with rfl | rfl | rfl | rfl | rfl | rfl | rfl | rfl | rfl <;> cases ho <;> rfl

/-- The list of R159 where the opcode byte is fetched and legal and the cells of the operands in use are written. -/
theorem step_reportsFirst_of_operands {s : State} {ir a b : Byte} {make : Byte → Byte → Instr} (hr : s.run = .running)
    (hu : s.uninit = .fault) (hsp : s.written spIdx = true) (hpc : s.pc ≤ 253) (hc : s.cell s.pc = some ir)
    (ho : opcodeMap ir = some make) (ha : 1 ≤ operandCount ir → s.cell (s.pc + 1) = some a)
    (hb : 2 ≤ operandCount ir → s.cell (s.pc + 2) = some b) : ReportsFirst s (errorsAfterFetch s ir a b) (step s) := by
  rw [step_of_written_operands hr hpc hc ho ha hb]
  exact .of_find?_eq (find?_errorsAfterFetch ho s a b) (exec_reportsFirst hr hu hsp (make a b))

/-- A cell whose use is no error holds what the list takes for it. -/
theorem eq_getD_of_used {c : Option Byte} {p : Bool} (h : (p && c.isNone) = false) (hp : p = true) : c = some (c.getD 0) := by
  cases c with
  | some v => rfl
  | none => simp [hp] at h

/-- Under `fault` a step reports the first error of R159. -/
theorem step_reportsFirst {s : State} (hr : s.run = .running) (hu : s.uninit = .fault) (hsp : s.written spIdx = true) :
    ReportsFirst s (errorsInOrder s) (step s) := by
  have hdraw : s.uninit ≠ .draw := by simp [hu]
  refine .cons (fun h => ?_) fun hfetch => .cons (fun h => ?_) fun hprefetch => ?_
  · exact step_of_fetch_error hr (fetch_of_bounds_error (fetchBounds_of_gt (of_decide_eq_true h)))
  · have hlast : s.pc = 254 ∨ s.pc = 255 := by
      have hlow := of_decide_eq_false hfetch
      have hhigh := of_decide_eq_true h
      omega
    exact step_of_fetch_error hr (fetch_of_bounds_error (fetchBounds_of_last hlast))
  have hpc : s.pc ≤ 253 := by
    have hhigh := of_decide_eq_false hprefetch
    omega
  refine .cons (fun h => ?_) fun hopcode => ?_
  · have hread := memRead_of_unwritten hdraw (show s.pc ≤ 255 by omega) (Option.isNone_iff_eq_none.mp h)
    exact step_of_fetch_error hr (fetch_of_opcode_error hpc hread)
  obtain ⟨ir, hc⟩ := Option.isSome_iff_exists.mp (Option.isNone_eq_false_iff.mp hopcode)
  rw [hc, Option.getD_some]
  refine .cons (fun h => step_of_illegal hr hpc hc (by simpa using h)) fun hlegal => ?_
  obtain ⟨make, ho⟩ := exists_opcodeMap_of_mem (ir := ir) (by simpa using hlegal)
  refine .cons (fun h => ?_) fun ha => .cons (fun h => ?_) fun hb => ?_
  · obtain ⟨hn, hnone⟩ : 1 ≤ operandCount ir ∧ s.cell (s.pc + 1) = none := by simpa [operandCount] using h
    exact step_of_unwritten_a hr hpc hc ho hdraw hn hnone
  · obtain ⟨hn, hnone⟩ : 2 ≤ operandCount ir ∧ s.cell (s.pc + 2) = none := by simpa [operandCount] using h
    have ha' := eq_getD_of_used ha (decide_eq_true (Nat.le_of_succ_le hn))
    exact step_of_unwritten_b hr hpc hc ho hdraw hn (Option.ne_none_iff_exists'.mpr ⟨_, ha'⟩) hnone
  · exact step_reportsFirst_of_operands hr hu hsp hpc hc ho (fun hn => eq_getD_of_used ha (decide_eq_true hn))
      fun hn => eq_getD_of_used hb (decide_eq_true hn)

end Sys2Proof.Machine

namespace Sys2Proof.Proofs

open Sys2Proof Sys2Proof.Machine

/-- Settles O11: the list's first six entries are the checks of the fetch, the others those of the instruction fetched. -/
theorem stepReportsTheFirstErrorInOrder : Obligations.StepReportsTheFirstErrorInOrder := by
  intro s hr hu hsp
  obtain ⟨hstops, hcompletes⟩ := step_reportsFirst hr hu hsp
  cases hf : (errorsInOrder s).find? (·.1) with
  | none => exact hcompletes hf
  | some entry =>
    obtain ⟨c, ir, e⟩ := entry
    exact hstops c ir e hf

/-- Settles O30: the error stop is made from the first state of the step, with the opcode byte that the fetch came to know. -/
theorem errorStopsArePrecise : Obligations.ErrorStopsArePrecise := by
  intro s t h ht
  obtain ⟨e, -, hstop⟩ := step_faulted h ht
  exact ⟨⟨e, s.pc, s.fetchedOpcode⟩, hstop, rfl, State.fetchedOpcode_eq_none_iff, fun _ => State.fetchedOpcode_of_cell⟩

/-- Settles O31: the record of a step that ends faulted is that of its error stop. -/
theorem reservedErrorsAreNeverRaised : Obligations.ReservedErrorsAreNeverRaised := by
  intro s t r h ht hrec
  obtain ⟨e, he, hstop⟩ := step_faulted h ht
  rw [hstop] at hrec
  cases hrec
  exact he

/-- Settles O32: the codes are the definition's. -/
theorem errorCodesAsAssigned : Obligations.ErrorCodesAsAssigned :=
  ⟨rfl, fun _ _ => rfl, rfl, fun _ _ => rfl⟩

end Sys2Proof.Proofs
end

section
/-! PROOFS. The statements about the program load (70_reset_and_hazards.md R181): when it is refused, what an accepted one makes
of memory, and that it keeps the invariant. -/

namespace Sys2Proof.Machine

theorem load_of_not_fits {base : Nat} {image : List Byte} (s : State) (h : 256 < base + image.length) :
    load base image s = none :=
  if_pos h

theorem load_of_fits {base : Nat} {image : List Byte} (s : State) (h : base + image.length ≤ 256) :
    load base image s = some { s with mem := s.mem.storeFrom base image } :=
  if_neg h.not_gt

/-- The invariant speaks of memory in its canonical form alone, so another canonical memory keeps it. -/
theorem State.Inv.withMem {s : State} (hs : s.Inv) {m : Memory} (hm : m.wf) : ({ s with mem := m } : State).Inv :=
  { hs with memWf := hm }

end Sys2Proof.Machine

namespace Sys2Proof.Proofs

open Sys2Proof Sys2Proof.Machine

/-- Settles O40: an accepted load stores the image from the base on, and a cell reads the image's byte inside and its old value
outside. -/
theorem loadWritesTheImageInOrder : Obligations.LoadWritesTheImageInOrder := by
  refine fun base image s => ⟨load_of_not_fits s, fun hfits => ⟨_, load_of_fits s hfits, rfl, fun k v hv => ?_, fun a ha => ?_⟩⟩
  · exact Memory.cell?_storeFrom_inside s.mem base hv
  · have houtside : a < base ∨ base + image.length ≤ a := by omega
    exact Memory.cell?_storeFrom_outside s.mem houtside

/-- Settles O42: an accepted load changes memory alone, and leaves it in its canonical form. -/
theorem loadKeepsTheInvariant : Obligations.LoadKeepsTheInvariant := by
  intro base image s t hs h
  have hwf : t.mem.wf := load_wf h hs.memWf
  obtain rfl := load_some h
  exact hs.withMem hwf

end Sys2Proof.Proofs
end
